-- ==== Sys2Proof/Word.lean ====
section
/-! DEFINITION. The words of the block and the types of its operands (00_scope.md R5, R7; 30_encoding.md R42, R43;
10_state.md R25). -/

namespace Sys2Proof

/-- A byte, 0..255 (R7). -/
abbrev Byte := BitVec 8

/-- A word, 0..2^32-1; its sign is the consumer's business (R7). -/
abbrev Word := BitVec 32

/-- The address operand of a port, `PORT_ADDR_W` = 16 bits (R5, R49). -/
abbrev Addr := BitVec 16

/-- The address a frame carries, `WIRE_ADDR_W` = 12 bits (R5, R29). -/
abbrev WireAddr := BitVec 12

/-- The kind of the request a response answers (R66, R70). -/
inductive Kind where
  | rd
  | wr
deriving DecidableEq, Repr

/-- The fields of a frame in `PKT` layout (R43), the two address parts joined (R49). -/
structure Packet where
  hdr     : Byte
  ctl     : BitVec 4
  addr    : WireAddr
  payload : Word
  ck      : Byte
deriving DecidableEq, Repr

/-- Where a record stands. Bit patterns select port operations (R54) and request frames (R45, R46); a response frame is
selected by no bit pattern (R47, R48), so its port says which it is. DESIGN CHOICE, log 8 and log 11. -/
inductive Port where
  /-- a port operation: its `op` code and its operands -/
  | cmd
  /-- a request, spelled as the frame it sends; behind a read's frame the handle of its destination (log 9) -/
  | request
  /-- a frame arriving as the response to a write -/
  | writeResponse
  /-- a frame arriving as the response to a read -/
  | readResponse
deriving DecidableEq, Repr

/-- One thing the environment presents to the block: bytes at a port. -/
structure Record where
  port  : Port
  bytes : List Byte
deriving DecidableEq, Repr

/-- Why a record is no instruction. -/
inductive DecodeError where
  /-- a port operation with no `op` byte -/
  | emptyRecord
  /-- an `op` code that selects nothing (R54: 6, 7, 13, 14, 15, and whatever is no 4-bit number) -/
  | unassignedOp (op : Nat)
  /-- the operand bytes behind `op` are too few or too many (log 8) -/
  | operandLength (op : Nat)
  /-- the byte for RD or WR is neither 0 nor 1 (log 8) -/
  | unknownKind (kind : Nat)
  /-- the handle stands for no destination: it is none of the values of `DEST` (log 5) -/
  | notADestination
  /-- a frame of a length its format does not have (R42) -/
  | frameLength (bytes : Nat)
  /-- bits 11:0 of the frame are neither `0x17D` nor `0x27D` (R45, R46) -/
  | notARequest (low12 : Nat)
deriving DecidableEq, Repr

end Sys2Proof
end

