-- ==== Sys2Proof/Config.lean ====
section
/-! DEFINITION. The constants and parameters of the block (00_scope.md R5, R6; 10_state.md R17). -/

namespace Sys2Proof.Config

/-- `HEADER`: byte 0 of every frame the encoder emits. -/
def header : Byte := 0x7D

/-- `CTL_READ`: the control code of a read. -/
def ctlRead : BitVec 4 := 1

/-- `CTL_WRITE`: the control code of a write. -/
def ctlWrite : BitVec 4 := 2

/-- `CK_CONST`: the constant added in the checksum. -/
def ckConst : Byte := 0x33

/-- `FRAME_LEN`: the bytes of a Packet, and of the response to a write. -/
def frameLen : Nat := 8

/-- `VAL_OFFSET`: the offset of the first value of a read response (90_conflicts.md C1). -/
def valOffset : Nat := 8

/-- `RD_CK_START`: the first byte under the trailing checksum of a read response (90_conflicts.md C2). -/
def rdCkStart : Nat := 8

/-- The least capacity R5 allows. -/
def minBufCap : Nat := 13

/-- By how much the capacity exceeds the least one. It has no body: nothing can be proved of its value (log 4). -/
opaque bufCapExtra : Nat

/-- `BUF_CAP`, an OPEN parameter with `BUF_CAP >= 13` (R5, 92_eei_decisions.md D7). `State.reset` holds it, and no
statement rests on its value (log 4). -/
def bufCap : Nat := bufCapExtra + minBufCap

/-- It has no body: nothing can be proved of its value (log 15). -/
opaque settleExtra : Nat

/-- `T_SETTLE`, an OPEN parameter `> 0` in some unit of time: a duty of the environment that no rule of the block reads
(R5, R98, R109; log 15). -/
def tSettle : Nat := settleExtra + 1

/-- `MAX_COUNT` for a capacity: the largest count whose response fits (R6). -/
def maxCount (cap : Nat) : Nat := (cap - 9) / 4

/-- Which byte strings stand for a destination. It has no body: nothing can be proved of its values (log 5). -/
opaque isDestCode : List Byte → Bool

/-- The values of the parameter `DEST` (R5, 92_eei_decisions.md D9): the empty string stands for one of them, which the
register that holds a destination has after reset, and of every other string it is open whether it stands for one (log 5). -/
def isDest (handle : List Byte) : Bool := handle.isEmpty || isDestCode handle

end Sys2Proof.Config

namespace Sys2Proof

/-- `DEST` (R5, R30), an OPEN parameter: what the handles stand for, of which the model knows only that equality is decided
(log 5). The block stores a destination and hands it back and never looks into it. -/
structure Dest where
  handle : List Byte
  valid  : Config.isDest handle = true
deriving DecidableEq, Repr

/-- The destination that the empty handle stands for. -/
def Dest.empty : Dest := ⟨[], rfl⟩

/-- What a read will populate: "destination pointer + expected item count" (R15). -/
structure PendingRead where
  count : Word
  dest  : Dest
deriving DecidableEq, Repr

end Sys2Proof
end

