-- ==== Sys2Proof/Machine/Operands.lean ====
section
/-! DEFINITION. Operand assembly and the arithmetic of the block: byte order (20_memory.md R31), address, payload and
control byte (30_encoding.md R49 to R51), checksum and Packet (40_codec_encode.md R57 to R61), counts and lengths
(41_codec_decode.md R65, R66). All of it is R58's list. -/

namespace Sys2Proof.Machine

/-- The low and the high byte of a 16-bit operand of a port, low byte first (log 8). -/
def le16 (v : Addr) : List Byte := [v.extractLsb' 0 8, v.extractLsb' 8 8]

/-- The inverse of `le16`. -/
def unle16 (b0 b1 : Byte) : Addr := b1 ++ b0

/-- `LE32` (R7). -/
def le32 (v : Word) : List Byte :=
  [v.extractLsb' 0 8, v.extractLsb' 8 8, v.extractLsb' 16 8, v.extractLsb' 24 8]

/-- `UNLE32` (R7). -/
def unle32 (b0 b1 b2 b3 : Byte) : Word := b3 ++ b2 ++ b1 ++ b0

/-- The `n` low bytes of `v`, least significant byte first (R7). -/
def bytesLE : Nat → Nat → List Byte
  | 0, _ => []
  | n + 1, v => BitVec.ofNat 8 v :: bytesLE n (v / 256)

/-- A byte sequence as a little-endian number (R7, R44). -/
def natLE : List Byte → Nat
  | [] => 0
  | b :: bs => b.toNat + 256 * natLE bs

/-- The words of a run of bytes, four bytes each (R31, R70). -/
def wordsOf : List Byte → List Word
  | b0 :: b1 :: b2 :: b3 :: bs => unle32 b0 b1 b2 b3 :: wordsOf bs
  | _ => []

/-- A run of words as bytes (R48). -/
def bytesOf (ws : List Word) : List Byte := ws.flatMap le32

/-- The address a frame carries: bits 15:12 are not transmitted (R49). -/
def wireAddr (a : Addr) : WireAddr := a.setWidth 12

/-- `addr_hi` (R49). -/
def addrHi (a : WireAddr) : BitVec 4 := a.extractLsb' 8 4

/-- `addr_lo` (R49). -/
def addrLo (a : WireAddr) : Byte := a.extractLsb' 0 8

/-- The control byte: address nibble high, control code low (R51). -/
def ctlByte (hi ctl : BitVec 4) : Byte := hi ++ ctl

/-- The control code in byte 1 of a frame (R69). -/
def ctlOf (b1 : Byte) : BitVec 4 := b1.extractLsb' 0 4

/-- The 12-bit address in bytes 1 and 2 of a frame (R49). -/
def joinAddr (b1 b2 : Byte) : WireAddr := b1.extractLsb' 4 4 ++ b2

/-- The 8-bit sum of a byte sequence, carries discarded (R57, R58). -/
def byteSum : List Byte → Byte
  | [] => 0
  | b :: bs => b + byteSum bs

/-- `CKSUM` (R57): complement first, then add `CK_CONST`, then truncate (90_conflicts.md C5). -/
def cksum (bs : List Byte) : Byte := ~~~ byteSum bs + Config.ckConst

/-- Bytes 0 to 6 of a frame in `PKT` layout (R43). -/
def pktBody (hdr : Byte) (ctl : BitVec 4) (addr : WireAddr) (payload : Word) : List Byte :=
  hdr :: ctlByte (addrHi addr) ctl :: addrLo addr :: le32 payload

/-- `PKT(ctl, addr, payload)` (R59). -/
def pkt (ctl : BitVec 4) (addr : Addr) (payload : Word) : List Byte :=
  let body := pktBody Config.header ctl (wireAddr addr) payload
  body ++ [cksum body]

/-- `ENC_RD` (R60). -/
def encodeRead (addr : Addr) (count : Word) : List Byte := pkt Config.ctlRead addr count

/-- `ENC_WR` (R61). -/
def encodeWrite (addr : Addr) (value : Word) : List Byte := pkt Config.ctlWrite addr value

/-- The 8 bytes of a frame as received, checksum byte included (R43). -/
def packetBytes (p : Packet) : List Byte := pktBody p.hdr p.ctl p.addr p.payload ++ [p.ck]

/-- The 9 + 4N bytes of a read response (R48). -/
def readResponseBytes (echo : Packet) (values : List Word) (ck : Byte) : List Byte :=
  packetBytes echo ++ bytesOf values ++ [ck]

/-- `N_EFF` (R65). -/
def nEff (count : Word) : Nat := max count.toNat 1

/-- `EXP_LEN` (R66), exact in the naturals. -/
def expectedLen : Kind → Word → Nat
  | .wr, _ => Config.frameLen
  | .rd, count => Config.valOffset + 4 * nEff count + 1

end Sys2Proof.Machine
end

