-- ==== Sys2Proof/Syntax.lean ====
section
/-! DEFINITION. The instructions: one constructor for each row of spec/opcode_table.json (30_encoding.md R45 to R48, R54).
Four are frames on the wire, six are events, five are pure functions. -/

namespace Sys2Proof

inductive Instr where
  /-- `RD_REQ` (R45). Its checksum byte is no operand: "determined by the other fields". The frame carries the count
  alone, and the event that sends it has a destination too (R77; log 9). -/
  | rdReq (addr : WireAddr) (read : PendingRead)
  /-- `WR_REQ` (R46). -/
  | wrReq (addr : WireAddr) (value : Word)
  /-- `WR_RESP` (R47): any 8 bytes. -/
  | wrResp (p : Packet)
  /-- `RD_RESP` (R48): the echo, the values, the trailing checksum byte as received. -/
  | rdResp (echo : Packet) (values : List Word) (ck : Byte)
  /-- `RESET` (R74). -/
  | reset
  /-- `OPEN` (R75). -/
  | openLink
  /-- `CLOSE` (R76). -/
  | closeLink
  /-- `ISSUE_RD addr, count, dest` (R77). -/
  | issueRd (addr : Addr) (count : Word) (dest : Dest)
  /-- `ISSUE_WR addr, value` (R78). -/
  | issueWr (addr : Addr) (value : Word)
  /-- `RX chunk` (R79, R80). -/
  | rx (chunk : List Byte)
  /-- `CKSUM B` (R57). -/
  | cksum (bytes : List Byte)
  /-- `ENC_RD addr, count` (R60). -/
  | encRd (addr : Addr) (count : Word)
  /-- `ENC_WR addr, value` (R61). -/
  | encWr (addr : Addr) (value : Word)
  /-- `EXP_LEN kind, count` (R66). -/
  | expLen (kind : Kind) (count : Word)
  /-- `DEC_RESP kind, count, B` (R70). -/
  | decResp (kind : Kind) (count : Word) (bytes : List Byte)
deriving DecidableEq, Repr

end Sys2Proof
end

