-- ==== Sys2Proof/WellFormed.lean ====
section
/-! DEFINITION. Which instructions are well formed: the two checks the types do not make. -/

namespace Sys2Proof

/-- A read response holds N values with `N = max(count, 1)` for a 32-bit count, so at least one and fewer than 2^32
(R48, R65; the upper bound DEDUCED, log 17). A call of `DEC_RESP` has a byte sequence of the length its kind and count
expect: "the operation has no meaning" otherwise (R70). -/
def Instr.wellFormed : Instr → Bool
  | .rdReq _ _ => true
  | .wrReq _ _ => true
  | .wrResp _ => true
  | .rdResp _ values _ => decide (1 ≤ values.length) && decide (values.length < 2 ^ 32)
  | .reset => true
  | .openLink => true
  | .closeLink => true
  | .issueRd _ _ _ => true
  | .issueWr _ _ => true
  | .rx _ => true
  | .cksum _ => true
  | .encRd _ _ => true
  | .encWr _ _ => true
  | .expLen _ _ => true
  | .decResp kind count bytes => decide (bytes.length = Machine.expectedLen kind count)

/-- `Instr.wellFormed` as a proposition. -/
abbrev WellFormed (i : Instr) : Prop := i.wellFormed = true

end Sys2Proof
end

