-- ==== Sys2Proof/Decode.lean ====
section
/-! DEFINITION. From a record to an instruction, and back. `op` codes: 30_encoding.md R54. Frames: R43 to R48. The place of
the operands behind an `op` code is the model's own (log 8): little-endian, in the order of R25, the last one of a
variable length taking the rest of the record. -/

namespace Sys2Proof

open Machine

/-- The byte for a `Kind` operand (log 8). -/
def kindByte : Kind → Byte
  | .rd => 0
  | .wr => 1

/-- Its reading. -/
def decodeKind (b : Byte) : Except DecodeError Kind :=
  match b.toNat with
  | 0 => .ok .rd
  | 1 => .ok .wr
  | k => .error (.unknownKind k)

/-- An operation without operands. -/
def decodeNone (op : Nat) (i : Instr) : List Byte → Except DecodeError Instr
  | [] => .ok i
  | _ :: _ => .error (.operandLength op)

/-- An operation with a 16-bit and a 32-bit operand and nothing after them. -/
def decodeAddrWord (op : Nat) (f : Addr → Word → Instr) : List Byte → Except DecodeError Instr
  | [a0, a1, w0, w1, w2, w3] => .ok (f (unle16 a0 a1) (unle32 w0 w1 w2 w3))
  | _ => .error (.operandLength op)

/-- The destination a handle stands for, where it stands for one (log 5). -/
def decodeDest (handle : List Byte) : Except DecodeError Dest :=
  if h : Config.isDest handle = true then .ok ⟨handle, h⟩ else .error .notADestination

/-- `ISSUE_RD`: the destination handle is the rest of the record. -/
def decodeIssueRd : List Byte → Except DecodeError Instr
  | a0 :: a1 :: c0 :: c1 :: c2 :: c3 :: handle =>
    match decodeDest handle with
    | .ok dest => .ok (.issueRd (unle16 a0 a1) (unle32 c0 c1 c2 c3) dest)
    | .error e => .error e
  | _ => .error (.operandLength 3)

/-- `EXP_LEN`. -/
def decodeExpLen : List Byte → Except DecodeError Instr
  | [k, c0, c1, c2, c3] =>
    match decodeKind k with
    | .ok kind => .ok (.expLen kind (unle32 c0 c1 c2 c3))
    | .error e => .error e
  | _ => .error (.operandLength 11)

/-- `DEC_RESP`: the byte sequence is the rest of the record. -/
def decodeDecResp : List Byte → Except DecodeError Instr
  | k :: c0 :: c1 :: c2 :: c3 :: bs =>
    match decodeKind k with
    | .ok kind => .ok (.decResp kind (unle32 c0 c1 c2 c3) bs)
    | .error e => .error e
  | _ => .error (.operandLength 12)

/-- A port operation: the 4-bit `op` code zero-extended to a byte, then the operands (R54). -/
def decodeCmd : List Byte → Except DecodeError Instr
  | [] => .error .emptyRecord
  | op :: rest =>
    match op.toNat with
    | 0 => decodeNone 0 .reset rest
    | 1 => decodeNone 1 .openLink rest
    | 2 => decodeNone 2 .closeLink rest
    | 3 => decodeIssueRd rest
    | 4 => decodeAddrWord 4 .issueWr rest
    | 5 => .ok (.rx rest)
    | 8 => .ok (.cksum rest)
    | 9 => decodeAddrWord 9 .encRd rest
    | 10 => decodeAddrWord 10 .encWr rest
    | 11 => decodeExpLen rest
    | 12 => decodeDecResp rest
    | n => .error (.unassignedOp n)

/-- The fields of 8 bytes in `PKT` layout (R43, R44). -/
def decodePacket : List Byte → Except DecodeError Packet
  | [b0, b1, b2, b3, b4, b5, b6, b7] => .ok ⟨b0, ctlOf b1, joinAddr b1 b2, unle32 b3 b4 b5 b6, b7⟩
  | bs => .error (.frameLength bs.length)

/-- A request frame, "Selected by F64 AND 0x0FFF" (R45, R46): header and control code. The checksum byte is "determined
by the other fields" and is not tested (DEDUCED, log 10). Behind a read's frame stands the handle of its destination (log 9). -/
def decodeRequest (bs : List Byte) : Except DecodeError Instr :=
  match decodePacket (bs.take 8) with
  | .error e => .error e
  | .ok p =>
    if p.hdr = Config.header ∧ p.ctl = Config.ctlRead then
      match decodeDest (bs.drop 8) with
      | .ok dest => .ok (.rdReq p.addr ⟨p.payload, dest⟩)
      | .error e => .error e
    else if p.hdr = Config.header ∧ p.ctl = Config.ctlWrite then
      if bs.length = 8 then .ok (.wrReq p.addr p.payload) else .error (.frameLength bs.length)
    else .error (.notARequest (256 * p.ctl.toNat + p.hdr.toNat))

/-- The response to a write: any 8 bytes (R47). -/
def decodeWriteResponse (bs : List Byte) : Except DecodeError Instr :=
  match decodePacket bs with
  | .error e => .error e
  | .ok p => .ok (.wrResp p)

/-- The response to a read: 8 bytes, then N >= 1 values, then one byte (R42, R48). -/
def decodeReadResponse (bs : List Byte) : Except DecodeError Instr :=
  if 13 ≤ bs.length ∧ (bs.length - 9) % 4 = 0 then
    match decodePacket (bs.take 8), bs.getLast? with
    | .ok p, some ck => .ok (.rdResp p (wordsOf ((bs.drop 8).dropLast)) ck)
    | _, _ => .error (.frameLength bs.length)
  else .error (.frameLength bs.length)

/-- The instruction a record stands for, or the name of what is wrong with it. -/
def decode (r : Record) : Except DecodeError Instr :=
  match r.port with
  | .cmd => decodeCmd r.bytes
  | .request => decodeRequest r.bytes
  | .writeResponse => decodeWriteResponse r.bytes
  | .readResponse => decodeReadResponse r.bytes

/-- The record of an instruction, written from the same tables. -/
def encode : Instr → Record
  | .rdReq addr read =>
    ⟨.request, pktBody Config.header Config.ctlRead addr read.count ++
      [cksum (pktBody Config.header Config.ctlRead addr read.count)] ++ read.dest.handle⟩
  | .wrReq addr value =>
    ⟨.request, pktBody Config.header Config.ctlWrite addr value ++ [cksum (pktBody Config.header Config.ctlWrite addr value)]⟩
  | .wrResp p => ⟨.writeResponse, packetBytes p⟩
  | .rdResp echo values ck => ⟨.readResponse, readResponseBytes echo values ck⟩
  | .reset => ⟨.cmd, [0]⟩
  | .openLink => ⟨.cmd, [1]⟩
  | .closeLink => ⟨.cmd, [2]⟩
  | .issueRd addr count dest => ⟨.cmd, 3 :: le16 addr ++ le32 count ++ dest.handle⟩
  | .issueWr addr value => ⟨.cmd, 4 :: le16 addr ++ le32 value⟩
  | .rx chunk => ⟨.cmd, 5 :: chunk⟩
  | .cksum bs => ⟨.cmd, 8 :: bs⟩
  | .encRd addr count => ⟨.cmd, 9 :: le16 addr ++ le32 count⟩
  | .encWr addr value => ⟨.cmd, 10 :: le16 addr ++ le32 value⟩
  | .expLen kind count => ⟨.cmd, 11 :: kindByte kind :: le32 count⟩
  | .decResp kind count bs => ⟨.cmd, 12 :: kindByte kind :: le32 count ++ bs⟩

/-- How many operand bytes of zero stand behind an `op` code when every operand word is zero: a chunk, a `CKSUM` input and
a destination handle are empty, and `DEC_RESP` (RD, count 0) has the 13 bytes its domain asks for (log 16). -/
def zeroOperands : Nat → Nat
  | 3 => 6
  | 4 => 6
  | 9 => 6
  | 10 => 6
  | 11 => 5
  | 12 => 18
  | _ => 0

/-- The record of a word numbered as spec/opcode_table.json numbers it, the bits above `nbits` zero (R44; log 16). A 64-bit
word is a request frame where bits 11:0 select one, and else the one other `PKT` row, `WR_RESP`; a word of a length only
`RDRESP` has is an `RD_RESP`; everything else is a port operation. -/
def tableRecord (nbits w : Nat) : Record :=
  let n := (nbits + 7) / 8
  let bs := bytesLE n w
  if n = 8 then
    if w % 4096 = 0x17D ∨ w % 4096 = 0x27D then ⟨.request, bs⟩ else ⟨.writeResponse, bs⟩
  else if 13 ≤ n ∧ (n - 9) % 4 = 0 then ⟨.readResponse, bs⟩
  else ⟨.cmd, bs ++ List.replicate (1 + zeroOperands (w % 256) - n) 0⟩

/-- The instruction the decoder reads from a word of the opcode table. -/
def decodeTableWord (nbits w : Nat) : Option Instr :=
  match decode (tableRecord nbits w) with
  | .ok i => some i
  | .error _ => none

end Sys2Proof
end

