-- ==== Sys2Proof/Machine/State.lean ====
section
/-! DEFINITION. The state of the block (10_state.md R10 to R26), its outputs, the reasons a step can stop, and the state
after reset. -/

namespace Sys2Proof.Machine

/-- The failure kinds (60_exceptions.md R87). -/
inductive Failure where
  | transportUnavailable
  | checksumMismatch
  | bufferOverrun
  | busy
deriving DecidableEq, Repr

/-- The result of `DEC_RESP` (41_codec_decode.md R70). -/
inductive DecResult where
  | checksumMismatch
  | decoded (control : BitVec 4) (address : Addr) (values : List Word)
deriving DecidableEq, Repr

/-- The output items of an event (R26). -/
inductive Output where
  | tx (frame : List Byte)
  | reject (code : Failure)
  | wb (dest : Dest) (values : List Word)
  | done (ok : Bool)
deriving DecidableEq, Repr

/-- The results of the pure functions (R25; R57, R60, R61, R66, R70). -/
inductive FnResult where
  | byte (b : Byte)
  | frame (bytes : List Byte)
  | length (n : Nat)
  | response (r : DecResult)
deriving DecidableEq, Repr

/-- The control state the flags spell (R20). -/
inductive ControlState where
  | closed
  | idle
  | wait
deriving DecidableEq, Repr

/-- Bytes by offset, offsets strictly rising. An offset that is not listed has no value (log 7). -/
abbrev Memory := List Host.Cell

/-- The record of R10, then the model's own fields. -/
structure State where
  /-- `link_open` (R11) -/
  linkOpen  : Bool
  /-- `busy` (R12) -/
  busy      : Bool
  /-- `rx_count` (R13) -/
  rxCount   : Nat
  /-- `exp_len` (R14) -/
  expLen    : Nat
  /-- `pend_valid` (R15) -/
  pendValid : Bool
  /-- `pend_dest` (R15, R30) -/
  pendDest  : Dest
  /-- `pend_count` (R15) -/
  pendCount : Word
  /-- `buf` (R16, R28) -/
  buf       : Memory
  /-- `BUF_CAP` (R5): no instruction writes it; statements range over it (log 4) -/
  bufCap    : Nat
  /-- the records presented and not yet handled, oldest first (log 1) -/
  input     : List Record
  /-- every item output so far, oldest first (log 3) -/
  outputs   : List Output
  /-- every result of a pure function so far, oldest first (log 3) -/
  results   : List FnResult
deriving DecidableEq, Repr

/-- The machine stops with a fault. Both are raised by the completion phase of `RX` (`readByte`), only in states that no
run reaches (20_memory.md R41). -/
inductive Fault where
  /-- The completion phase reads an offset at or above `BUF_CAP`, which does not exist (R28). Safe. -/
  | bufferOffsetAbsent (offset : Nat)
  /-- The completion phase reads a byte that nothing has written (R22, R23; log 7). Safe. -/
  | bufferByteUnwritten (offset : Nat)
deriving DecidableEq, Repr

/-- The machine does not take the step. -/
inductive Refusal where
  /-- `exec`'s arm of an instruction that has no meaning yet. Safe. -/
  | notModelled (mnemonic : String)
  /-- `step`: the record selects no operation (R54, 93_implementation_defined.md U6; log 14). Safe. -/
  | undecodable (e : DecodeError)
  /-- `DEC_RESP` on a byte sequence of the wrong length: "a model refuses the call" (R70, U5; log 12). Raised by the
  instruction `DEC_RESP`, and by the completion phase of `RX` only in states that no run reaches. Safe. -/
  | decRespLength (given expected : Nat)
deriving DecidableEq, Repr

/-- The state after `RESET` from power-on (R23, R102). `link_open`, `busy`, `rx_count`, `pend_valid` are the spec's;
`exp_len`, `pend_dest`, `pend_count` are DESIGN CHOICES (log 6); `buf` lists nothing (log 7); the capacity is uninterpreted
(log 4); nothing has been presented or put out (log 1, log 3). -/
def State.reset : State where
  linkOpen  := false
  busy      := false
  rxCount   := 0
  expLen    := 0
  pendValid := false
  pendDest  := Dest.empty
  pendCount := 0
  buf       := []
  bufCap    := Config.bufCap
  input     := []
  outputs   := []
  results   := []

end Sys2Proof.Machine
end

