-- ==== Sys2Proof/Machine/Flags.lean ====
section
/-! DEFINITION. The flags `link_open`, `busy`, `pend_valid` and what goes with them (10_state.md R11, R12, R15, R20, R21;
70_reset_and_hazards.md R103). The block has no arithmetic flags (R21). -/

namespace Sys2Proof.Machine

/-- What every clear of the reassembly has in common (R103, R94). -/
def disarm (s : State) : State := { s with rxCount := 0, pendValid := false, busy := false }

/-- An accepted `ISSUE_RD` (R14, R15, R77). -/
def armRead (count : Word) (dest : Dest) (s : State) : State :=
  { s with expLen := expectedLen .rd count, pendValid := true, pendDest := dest, pendCount := count, busy := true }

/-- An accepted `ISSUE_WR` (R14, R15, R78). -/
def armWrite (s : State) : State := { s with expLen := expectedLen .wr 0, pendValid := false, busy := true }

/-- `link_open` (R11). -/
def setLink (up : Bool) (s : State) : State := { s with linkOpen := up }

/-- The kind of the request in flight: `pend_valid` is the record that it was a read (R15). -/
def kindInFlight (s : State) : Kind := if s.pendValid then .rd else .wr

/-- The count handed to `DEC_RESP`: `pend_count` for a read, 0 for a write (R80). -/
def countInFlight (s : State) : Word := if s.pendValid then s.pendCount else 0

/-- The control state (R20). -/
def controlState (s : State) : ControlState :=
  if s.linkOpen then if s.busy then .wait else .idle else .closed

end Sys2Proof.Machine
end

