-- ==== Sys2Proof/Machine/Ops.lean ====
section
/-! DEFINITION. The shared operations: the buffer, the ports, the failures, validating and decoding a response, and the
two phases of receiving. -/

namespace Sys2Proof.Machine

/-- The canonical form: offsets strictly rising. What nothing has written has no value, so no entry can equal it (log 7). -/
abbrev Memory.wf (m : Memory) : Prop := m.Pairwise (fun c d => c.1 < d.1)

/-- The byte at an offset, if one has been written. -/
def Memory.read : Memory → Nat → Option Byte
  | [], _ => none
  | c :: m, a => if c.1 = a then some c.2 else Memory.read m a

/-- Write one byte; nothing else changes (R33). -/
def Memory.write : Memory → Nat → Byte → Memory
  | [], a, b => [(a, b)]
  | c :: m, a, b =>
    if a < c.1 then (a, b) :: c :: m
    else if a = c.1 then (a, b) :: m
    else c :: Memory.write m a b

/-- Write a run of bytes at consecutive offsets, the first one lowest (R31, R79). -/
def Memory.writeRun : Memory → Nat → List Byte → Memory
  | m, _, [] => m
  | m, a, b :: bs => Memory.writeRun (m.write a b) (a + 1) bs

/-- `MemRead(addr, n)` (R7): the little-endian number of `n` bytes, if all have been written. -/
def Memory.memRead (m : Memory) : Nat → Nat → Option Nat
  | _, 0 => some 0
  | a, n + 1 =>
    match m.read a, Memory.memRead m (a + 1) n with
    | some b, some v => some (b.toNat + 256 * v)
    | _, _ => none

/-- `MemWrite(addr, n, v)` (R7). -/
def Memory.memWrite (m : Memory) (a n v : Nat) : Memory := m.writeRun a (bytesLE n v)

/-- One buffer byte as the completion phase reads it. There is no offset at or above `BUF_CAP` (R28). -/
def readByte (s : State) (i : Nat) : Except Fault Byte :=
  if i < s.bufCap then
    match s.buf.read i with
    | some b => .ok b
    | none => .error (.bufferByteUnwritten i)
  else .error (.bufferOffsetAbsent i)

/-- `buf[i .. i + n - 1]` (R80). -/
def readRun (s : State) : Nat → Nat → Except Fault (List Byte)
  | _, 0 => .ok []
  | i, n + 1 =>
    match readByte s i with
    | .error f => .error f
    | .ok b =>
      match readRun s (i + 1) n with
      | .error f => .error f
      | .ok bs => .ok (b :: bs)

/-- `emit` (R7): append to the output list. -/
def emit (os : List Output) (s : State) : State := { s with outputs := s.outputs ++ os }

/-- The result port of the pure functions (R25). -/
def giveResult (r : FnResult) (s : State) : State := { s with results := s.results ++ [r] }

/-- `raise` (R7): taking a failure. The output is the one item `REJECT`, the state is as it was; there is no handler, no
saved state and no return (60_exceptions.md R88, R91, R94, R95). -/
def raise (f : Failure) (s : State) : State := emit [.reject f] s

/-- The code of a failure kind on a status port; 0 is no failure (R87). -/
def failureCode : Option Failure → Nat
  | none => 0
  | some .transportUnavailable => 1
  | some .checksumMismatch => 2
  | some .bufferOverrun => 3
  | some .busy => 4

/-- `PKT_OK` of 8 bytes (R67). -/
def pktOk (f : List Byte) : Bool := decide (f[7]? = some (cksum (f.take 7)))

/-- `RDRESP_OK` of 9 + 4N bytes (R68): the last byte against the checksum of bytes `RD_CK_START` to `7 + 4N`. -/
def rdRespOk (b : List Byte) (n : Nat) : Bool :=
  decide (b[Config.valOffset + 4 * n]? = some (cksum ((b.take (Config.valOffset + 4 * n)).drop Config.rdCkStart)))

/-- `control` of a response of at least 8 bytes (R69). -/
def controlOf (b : List Byte) : BitVec 4 := ctlOf (b.getD 1 0)

/-- `address` of a response of at least 8 bytes, zero-extended to 16 bits (R69). -/
def addressOf (b : List Byte) : Addr := (joinAddr (b.getD 1 0) (b.getD 2 0)).setWidth 16

/-- The values of a read response (R70): only an echoed control code of 1 yields any (R52, R73). -/
def valuesOf (b : List Byte) (n : Nat) : List Word :=
  if controlOf b = Config.ctlRead then wordsOf ((b.drop Config.valOffset).take (4 * n)) else []

/-- `DEC_RESP` (R70). `none`: `len(B)` is not `EXP_LEN(kind, count)`, so the call is refused. -/
def decodeResponse (kind : Kind) (count : Word) (b : List Byte) : Option DecResult :=
  if b.length = expectedLen kind count then
    match kind with
    | .wr => some (if pktOk b then .decoded (controlOf b) (addressOf b) [] else .checksumMismatch)
    | .rd =>
      some (if rdRespOk b (nEff count) then .decoded (controlOf b) (addressOf b) (valuesOf b (nEff count))
        else .checksumMismatch)
  else none

/-- How many bytes of a chunk are stored (R79). The rest is dropped in silence (R90). -/
def storedCount (chunk : List Byte) (s : State) : Nat := min chunk.length (s.bufCap - s.rxCount)

/-- The copy phase (R79). -/
def copyChunk (chunk : List Byte) (s : State) : State :=
  { s with
    buf := s.buf.writeRun s.rxCount (chunk.take (storedCount chunk s))
    rxCount := s.rxCount + storedCount chunk s }

/-- What a completion outputs: the write-back, if any, before the notification (R80, R81). -/
def completionOutputs (s : State) : DecResult → List Output
  | .checksumMismatch => [.done false]
  | .decoded _ _ values => if s.pendValid ∧ values ≠ [] then [.wb s.pendDest values, .done true] else [.done true]

/-- The completion phase (R80). -/
def complete (s : State) : Host.Outcome State Fault Refusal :=
  if s.busy ∧ s.expLen ≤ s.rxCount then
    match readRun s 0 s.expLen with
    | .error f => .fault f
    | .ok b =>
      match decodeResponse (kindInFlight s) (countInFlight s) b with
      | none => .refused (.decRespLength b.length (expectedLen (kindInFlight s) (countInFlight s)))
      | some r => .next (emit (completionOutputs s r) (disarm s))
  else .next s

/-- `RX`: the copy phase, then the completion phase on the updated count (R39, R79, R80). -/
def receive (chunk : List Byte) (s : State) : Host.Outcome State Fault Refusal := complete (copyChunk chunk s)

/-- The tests of `ISSUE_RD` and `ISSUE_WR` in the order of R93, and the acceptance. -/
def issue (accept : State → State) (s : State) : Host.Outcome State Fault Refusal :=
  if s.linkOpen then
    if s.busy then .next (raise .busy s) else .next (accept s)
  else .next (raise .transportUnavailable s)

/-- The event that sends a read request (R77): tests, arming, and the frame of `ENC_RD`. -/
def issueRead (addr : Addr) (count : Word) (dest : Dest) (s : State) : Host.Outcome State Fault Refusal :=
  issue (fun s => emit [.tx (encodeRead addr count)] (armRead count dest s)) s

/-- The event that sends a write request (R78). -/
def issueWrite (addr : Addr) (value : Word) (s : State) : Host.Outcome State Fault Refusal :=
  issue (fun s => emit [.tx (encodeWrite addr value)] (armWrite s)) s

end Sys2Proof.Machine
end

