-- ==== Sys2Proof/Machine/Codec.lean ====
section
/-! DEFINITION. The five pure functions (40_codec_encode.md, 41_codec_decode.md): operands in, a result out, no field of R10
read or written (10_state.md R24). -/

namespace Sys2Proof.Machine

/-- `CKSUM B` (R57). -/
def execCksum (bytes : List Byte) (s : State) : Host.Outcome State Fault Refusal :=
  .next (giveResult (.byte (cksum bytes)) s)

/-- `ENC_RD addr, count` (R60). -/
def execEncRd (addr : Addr) (count : Word) (s : State) : Host.Outcome State Fault Refusal :=
  .next (giveResult (.frame (encodeRead addr count)) s)

/-- `ENC_WR addr, value` (R61). -/
def execEncWr (addr : Addr) (value : Word) (s : State) : Host.Outcome State Fault Refusal :=
  .next (giveResult (.frame (encodeWrite addr value)) s)

/-- `EXP_LEN kind, count` (R66). -/
def execExpLen (kind : Kind) (count : Word) (s : State) : Host.Outcome State Fault Refusal :=
  .next (giveResult (.length (expectedLen kind count)) s)

/-- `DEC_RESP kind, count, B` (R70): refused where `len(B)` is not `EXP_LEN(kind, count)`. -/
def execDecResp (kind : Kind) (count : Word) (bytes : List Byte) (s : State) : Host.Outcome State Fault Refusal :=
  match decodeResponse kind count bytes with
  | some r => .next (giveResult (.response r) s)
  | none => .refused (.decRespLength bytes.length (expectedLen kind count))

end Sys2Proof.Machine
end

