-- ==== Sys2Proof/Machine/Events.lean ====
section
/-! DEFINITION. The six events (42_reassembly.md R74 to R80). -/

namespace Sys2Proof.Machine

/-- `RESET` (R74): `exp_len`, `pend_dest`, `pend_count` and `buf` stay as they are. -/
def execReset (s : State) : Host.Outcome State Fault Refusal := .next (disarm (setLink false s))

/-- `OPEN` (R75). -/
def execOpenLink (s : State) : Host.Outcome State Fault Refusal := .next (setLink true s)

/-- `CLOSE` (R76). -/
def execCloseLink (s : State) : Host.Outcome State Fault Refusal := .next (disarm (setLink false s))

/-- `ISSUE_RD addr, count, dest` (R77). -/
def execIssueRd (addr : Addr) (count : Word) (dest : Dest) (s : State) : Host.Outcome State Fault Refusal :=
  issueRead addr count dest s

/-- `ISSUE_WR addr, value` (R78). -/
def execIssueWr (addr : Addr) (value : Word) (s : State) : Host.Outcome State Fault Refusal :=
  issueWrite addr value s

/-- `RX chunk` (R79, R80). -/
def execRx (chunk : List Byte) (s : State) : Host.Outcome State Fault Refusal := receive chunk s

end Sys2Proof.Machine
end

