-- ==== Sys2Proof/Machine/Frames.lean ====
section
/-! DEFINITION. The four frames of the wire (30_encoding.md R45 to R48). A request frame is "sent by the block", and the block
sends one only in handling an `ISSUE` ("no step that is not the handling of one event", 00_scope.md R9;
70_reset_and_hazards.md R107): the row stands for that event, spelled as its frame (DEDUCED, log 9). A response frame is
"received by the block": the `RX` of its bytes (DEDUCED, log 11). -/

namespace Sys2Proof.Machine

/-- `RD_REQ` (R45, R60, R77). -/
def execRdReq (addr : WireAddr) (read : PendingRead) (s : State) : Host.Outcome State Fault Refusal :=
  issueRead (addr.setWidth 16) read.count read.dest s

/-- `WR_REQ` (R46, R61, R78). -/
def execWrReq (addr : WireAddr) (value : Word) (s : State) : Host.Outcome State Fault Refusal :=
  issueWrite (addr.setWidth 16) value s

/-- `WR_RESP` (R47, R80). -/
def execWrResp (p : Packet) (s : State) : Host.Outcome State Fault Refusal := receive (packetBytes p) s

/-- `RD_RESP` (R48, R80). -/
def execRdResp (echo : Packet) (values : List Word) (ck : Byte) (s : State) : Host.Outcome State Fault Refusal :=
  receive (readResponseBytes echo values ck) s

end Sys2Proof.Machine
end

