-- ==== Sys2Proof/Machine/Dispatch.lean ====
section
/-! DEFINITION. One arm for each instruction. -/

namespace Sys2Proof.Machine

def exec (i : Instr) (s : State) : Host.Outcome State Fault Refusal :=
  match i with
  | .rdReq addr read => Sys2Proof.Machine.execRdReq addr read s
  | .wrReq addr value => Sys2Proof.Machine.execWrReq addr value s
  | .wrResp p => Sys2Proof.Machine.execWrResp p s
  | .rdResp echo values ck => Sys2Proof.Machine.execRdResp echo values ck s
  | .reset => Sys2Proof.Machine.execReset s
  | .openLink => Sys2Proof.Machine.execOpenLink s
  | .closeLink => Sys2Proof.Machine.execCloseLink s
  | .issueRd addr count dest => Sys2Proof.Machine.execIssueRd addr count dest s
  | .issueWr addr value => Sys2Proof.Machine.execIssueWr addr value s
  | .rx chunk => Sys2Proof.Machine.execRx chunk s
  | .cksum bytes => Sys2Proof.Machine.execCksum bytes s
  | .encRd addr count => Sys2Proof.Machine.execEncRd addr count s
  | .encWr addr value => Sys2Proof.Machine.execEncWr addr value s
  | .expLen kind count => Sys2Proof.Machine.execExpLen kind count s
  | .decResp kind count bytes => Sys2Proof.Machine.execDecResp kind count bytes s

end Sys2Proof.Machine
end

