-- ==== Sys2Proof/Machine/Step.lean ====
section
/-! DEFINITION. One step: the block takes the oldest record presented to it and handles it wholly (20_memory.md R36). -/

namespace Sys2Proof.Machine

/-- With nothing presented the block waits: it has no step "that is not the handling of one event" (00_scope.md R9; log 1).
A record that selects no operation is refused by name (30_encoding.md R54; log 14). -/
def step (s : State) : Host.Outcome State Fault Refusal :=
  match s.input with
  | [] => .next s
  | r :: rest =>
    match decode r with
    | .ok i => exec i { s with input := rest }
    | .error e => .refused (.undecodable e)

/-- The environment presents the instruction of a table word ahead of everything else pending (log 2). -/
def State.withFetchWord (s : State) (nbits w : Nat) : State := { s with input := tableRecord nbits w :: s.input }

end Sys2Proof.Machine
end

