-- ==== Sys2Proof/Safety.lean ====
section
/-! DEFINITION. What counts as a safe state and a safe run, in the terms the statements use: the invariants of
10_state.md R21, the unobservable state of R22, and runs as folds of `exec` (20_memory.md R36). -/

namespace Sys2Proof.Machine

/-- The invariants of R21 (1 to 6), the constraint on the capacity (00_scope.md R5), and the canonical form of the buffer.
Invariant 6 is said without history: every byte below `rx_count` has been written (DEDUCED, log 18). -/
structure State.Inv (s : State) : Prop where
  /-- `BUF_CAP >= 13` (R5) -/
  cap_ge : 13 ≤ s.bufCap
  /-- invariant 1 -/
  count_le : s.rxCount ≤ s.bufCap
  /-- invariant 2 -/
  pend_busy : s.pendValid = true → s.busy = true
  /-- invariant 3 -/
  busy_open : s.busy = true → s.linkOpen = true
  /-- invariant 4 -/
  len_write : s.busy = true → s.pendValid = false → s.expLen = 8
  /-- invariant 5 -/
  len_read : s.busy = true → s.pendValid = true → s.expLen = 9 + 4 * max s.pendCount.toNat 1
  /-- invariant 6 -/
  written : ∀ i, i < s.rxCount → (s.buf.read i).isSome = true
  /-- offsets strictly rising -/
  canonical : s.buf.wf
  /-- there is no offset at or above `BUF_CAP` (R28) -/
  bounded : ∀ c ∈ s.buf, c.1 < s.bufCap

/-- Two states that differ at most in what R22 says can never be observed: buffer bytes at and above `rx_count`, `exp_len`
while `busy` is 0, the descriptor while `pend_valid` is 0. -/
structure State.SameObservable (s t : State) : Prop where
  linkOpen : s.linkOpen = t.linkOpen
  busy : s.busy = t.busy
  rxCount : s.rxCount = t.rxCount
  pendValid : s.pendValid = t.pendValid
  expLen : s.busy = true → s.expLen = t.expLen
  pendDest : s.pendValid = true → s.pendDest = t.pendDest
  pendCount : s.pendValid = true → s.pendCount = t.pendCount
  bytes : ∀ i, i < s.rxCount → s.buf.read i = t.buf.read i
  bufCap : s.bufCap = t.bufCap
  input : s.input = t.input
  outputs : s.outputs = t.outputs
  results : s.results = t.results

/-- The bytes received and not yet consumed: `buf[0 .. rx_count - 1]` is `bs`. -/
def State.Holds (s : State) (bs : List Byte) : Prop :=
  bs.length = s.rxCount ∧ ∀ i, i < s.rxCount → s.buf.read i = bs[i]?

/-- A sequence of instructions, one after the other (R36: "the left fold of `step`"). -/
def execAll : List Instr → State → Host.Outcome State Fault Refusal
  | [], s => .next s
  | i :: is, s =>
    match exec i s with
    | .next t => execAll is t
    | .fault f => .fault f
    | .refused r => .refused r

/-- The bytes an instruction brings to the block: the chunk of `RX`, the bytes of a response frame. -/
def bytesArriving : Instr → Option (List Byte)
  | .rdReq _ _ => none
  | .wrReq _ _ => none
  | .wrResp p => some (packetBytes p)
  | .rdResp echo values ck => some (readResponseBytes echo values ck)
  | .reset => none
  | .openLink => none
  | .closeLink => none
  | .issueRd _ _ _ => none
  | .issueWr _ _ => none
  | .rx chunk => some chunk
  | .cksum _ => none
  | .encRd _ _ => none
  | .encWr _ _ => none
  | .expLen _ _ => none
  | .decResp _ _ _ => none

/-- `ISSUE_RD` and `ISSUE_WR`, the events that can be rejected (60_exceptions.md R88, R91), and the same two events spelled as
the frames they send (log 9). -/
def isIssue : Instr → Bool
  | .rdReq _ _ => true
  | .wrReq _ _ => true
  | .wrResp _ => false
  | .rdResp _ _ _ => false
  | .reset => false
  | .openLink => false
  | .closeLink => false
  | .issueRd _ _ _ => true
  | .issueWr _ _ => true
  | .rx _ => false
  | .cksum _ => false
  | .encRd _ _ => false
  | .encWr _ _ => false
  | .expLen _ _ => false
  | .decResp _ _ _ => false

/-- `RESET` and `CLOSE`: what cancels a request in flight (70_reset_and_hazards.md R103). -/
abbrev Cancels (i : Instr) : Prop := i = .reset ∨ i = .closeLink

/-- The outputs only a completion makes (42_reassembly.md R80). -/
def isAnswer : Output → Bool
  | .tx _ => false
  | .reject _ => false
  | .wb _ _ => true
  | .done _ => true

/-- An output with its destination renamed. -/
def Output.mapDest (f : Dest → Dest) : Output → Output
  | .tx frame => .tx frame
  | .reject code => .reject code
  | .wb dest values => .wb (f dest) values
  | .done ok => .done ok

/-- A state with every destination in it renamed; records presented stay as they are. -/
def State.mapDest (f : Dest → Dest) (s : State) : State :=
  { s with pendDest := f s.pendDest, outputs := s.outputs.map (Output.mapDest f) }

/-- An instruction with its destination renamed. -/
def renameDest (f : Dest → Dest) : Instr → Instr
  | .rdReq addr read => .rdReq addr ⟨read.count, f read.dest⟩
  | .wrReq addr value => .wrReq addr value
  | .wrResp p => .wrResp p
  | .rdResp echo values ck => .rdResp echo values ck
  | .reset => .reset
  | .openLink => .openLink
  | .closeLink => .closeLink
  | .issueRd addr count dest => .issueRd addr count (f dest)
  | .issueWr addr value => .issueWr addr value
  | .rx chunk => .rx chunk
  | .cksum bytes => .cksum bytes
  | .encRd addr count => .encRd addr count
  | .encWr addr value => .encWr addr value
  | .expLen kind count => .expLen kind count
  | .decResp kind count bytes => .decResp kind count bytes

/-- The output lists one event can have (10_state.md R26): "exactly" these five shapes. -/
def PossibleOutputs (os : List Output) : Prop :=
  os = [] ∨ (∃ f : List Byte, f.length = 8 ∧ os = [.tx f]) ∨
    os = [.reject .transportUnavailable] ∨ os = [.reject .busy] ∨ (∃ ok, os = [.done ok]) ∨
    (∃ d vs, vs ≠ [] ∧ os = [.wb d vs, .done true])

end Sys2Proof.Machine
end

