-- ==== Sys2Proof/Certificates/Slice0/Obligations.lean ====
section
/-! DEFINITION. The statements. Bytes and words are compared as naturals against the formulas of the spec, so that a
statement does not repeat a definition of the model. -/

open Sys2Proof Sys2Proof.Machine

/-! ## Decoding and stepping -/

/-- What one step does (20_memory.md R36): it takes the oldest record and runs its instruction with that record gone; a
record that stands for no instruction is refused by name; with nothing presented it waits. The queue is the model's own
(log 1, log 14). -/
def Obligations.StepRunsTheDecodedInstruction : Prop :=
  ∀ s : State,
    (∀ r rest i, s.input = r :: rest → decode r = .ok i → step s = exec i { s with input := rest }) ∧
    (∀ r rest e, s.input = r :: rest → decode r = .error e → step s = .refused (.undecodable e)) ∧
    (s.input = [] → step s = .next s)

/-- A word of the opcode table, presented, is what the next step runs (log 2, log 16). -/
def Obligations.PresentedTableWordRunsNext : Prop :=
  ∀ (s : State) (nbits w : Nat) (i : Instr), decodeTableWord nbits w = some i → step (s.withFetchWord nbits w) = exec i s

/-- Decode and encode agree on every well-formed instruction (30_encoding.md R43 to R51, R54). -/
def Obligations.DecodeGivesBackTheEncoded : Prop := ∀ i : Instr, WellFormed i → decode (encode i) = .ok i

/-- Every record that decodes is the record of its instruction (log 8, log 9, log 11), but for the checksum byte of a request
frame, which is "determined by the other fields" (log 10). -/
def Obligations.EveryRecordHasOneMeaning : Prop :=
  ∀ (r : Record) (i : Instr), decode r = .ok i →
    (r.port ≠ .request → encode i = r) ∧
    (r.port = .request → (encode i).port = .request ∧ 8 ≤ r.bytes.length ∧
      (encode i).bytes.take 7 = r.bytes.take 7 ∧ (encode i).bytes.drop 8 = r.bytes.drop 8)

/-- Words written out from the spec: `F64` of V10 and V17 (95_test_vectors.md), the frames of V38b and V32, the `op` codes of
R54 with the operands of V13, V19a and others, the five codes that select nothing. Where operands stand behind `op` is the
model's choice (log 8, destinations log 5 and log 9), and so is which record a bare word of the table is, its operands zero
(log 16). -/
def Obligations.WrittenOutWordsDecode : Prop :=
  decodeTableWord 64 0xE900000001CA017D = some (.rdReq 0x0CA ⟨1, Dest.empty⟩) ∧
  decodeTableWord 64 0x0F1234567880127D = some (.wrReq 0x180 0x12345678) ∧
  decode ⟨.writeResponse, [0x7D, 0xA1, 0xBC, 0x04, 0x03, 0x02, 0x01, 0x4E]⟩ =
    .ok (.wrResp ⟨0x7D, 1, 0xABC, 0x01020304, 0x4E⟩) ∧
  decode ⟨.readResponse, [0x7D, 0x01, 0xCA, 0x00, 0x00, 0x00, 0x00, 0xEA, 0xEF, 0xBE, 0xAD, 0xDE, 0xFA]⟩ =
    .ok (.rdResp ⟨0x7D, 1, 0x0CA, 0, 0xEA⟩ [0xDEADBEEF] 0xFA) ∧
  decodeTableWord 8 0 = some .reset ∧ decodeTableWord 8 1 = some .openLink ∧ decodeTableWord 8 2 = some .closeLink ∧
  (∀ d : Dest, decode ⟨.cmd, [3, 0xCA, 0x00, 0x01, 0x00, 0x00, 0x00] ++ d.handle⟩ = .ok (.issueRd 0x00CA 1 d)) ∧
  (∀ d : Dest, decode ⟨.request, [0x7D, 0x01, 0xCA, 0x01, 0x00, 0x00, 0x00, 0xE9] ++ d.handle⟩ =
    .ok (.rdReq 0x0CA ⟨1, d⟩)) ∧
  decode ⟨.cmd, [4, 0x80, 0x01, 0x78, 0x56, 0x34, 0x12]⟩ = .ok (.issueWr 0x0180 0x12345678) ∧
  decode ⟨.cmd, [5, 0x7D, 0x01]⟩ = .ok (.rx [0x7D, 0x01]) ∧
  decode ⟨.cmd, [8, 0x33]⟩ = .ok (.cksum [0x33]) ∧
  decodeTableWord 8 9 = some (.encRd 0 0) ∧ decodeTableWord 8 10 = some (.encWr 0 0) ∧
  decode ⟨.cmd, [9, 0xF6, 0x00, 0x14, 0x00, 0x00, 0x00]⟩ = .ok (.encRd 0x00F6 20) ∧
  decode ⟨.cmd, [10, 0x09, 0x01, 0x01, 0x00, 0x00, 0x00]⟩ = .ok (.encWr 0x0109 1) ∧
  decode ⟨.cmd, [11, 1, 0x39, 0x30, 0, 0]⟩ = .ok (.expLen .wr 12345) ∧
  decode ⟨.cmd, [12, 0, 2, 0, 0, 0, 0xAA]⟩ = .ok (.decResp .rd 2 [0xAA]) ∧
  (∀ op ∈ [6, 7, 13, 14, 15], decodeTableWord 8 op = none)

/-! ## Invariants and runs -/

/-- The reset state has what R23 gives it and meets the invariants of R21; the capacity there is any (log 4). -/
def Obligations.ResetStateMeetsTheInvariant : Prop :=
  State.reset.linkOpen = false ∧ State.reset.busy = false ∧ State.reset.rxCount = 0 ∧ State.reset.pendValid = false ∧
    controlState State.reset = .closed ∧ State.reset.Inv

/-- Every step keeps the invariants of 10_state.md R21, from every state that meets them. -/
def Obligations.EveryStepKeepsTheInvariant : Prop := ∀ s t : State, s.Inv → step s = .next t → t.Inv

/-- Nothing stops the block: from every state that meets the invariants every well-formed instruction goes on (no unwritten,
stale or absent byte is ever read, R41; the domain of `DEC_RESP` is met inside `RX`, R80). -/
def Obligations.EveryWellFormedInstructionCompletes : Prop :=
  ∀ (s : State) (i : Instr), s.Inv → WellFormed i → ∃ t, exec i s = .next t ∧ t.Inv

/-- A run of the machine over presented records is the left fold of `exec` over their instructions (R36). -/
def Obligations.RunsAreFoldsOfEvents : Prop :=
  ∀ (is : List Instr) (rest : List Record) (s : State), (∀ i ∈ is, WellFormed i) → s.input = is.map encode ++ rest →
    Host.Core.run core is.length s = execAll is { s with input := rest }

/-! ## The events -/

/-- `RESET` (R74). -/
def Obligations.ResetEvent : Prop :=
  decodeTableWord 4 0 = some .reset ∧
  (∀ s : State, ∃ t, exec .reset s = .next t ∧ controlState t = .closed ∧
    t = { s with linkOpen := false, busy := false, rxCount := 0, pendValid := false }) ∧
  (∀ s : State, s.linkOpen = false → s.busy = false → s.rxCount = 0 → s.pendValid = false → exec .reset s = .next s)

/-- `OPEN` (R75). -/
def Obligations.OpenEvent : Prop :=
  decodeTableWord 4 1 = some .openLink ∧
  (∀ s : State, exec .openLink s = .next { s with linkOpen := true }) ∧
  (∀ s : State, s.linkOpen = true → exec .openLink s = .next s)

/-- `CLOSE` (R76): it leaves what `RESET` leaves; while closed it changes only `rx_count`. -/
def Obligations.CloseEvent : Prop :=
  decodeTableWord 4 2 = some .closeLink ∧
  (∀ s : State, exec .closeLink s =
    .next { s with linkOpen := false, pendValid := false, rxCount := 0, busy := false }) ∧
  (∀ s : State, exec .closeLink s = exec .reset s) ∧
  (∀ s : State, s.Inv → s.linkOpen = false → exec .closeLink s = .next { s with rxCount := 0 })

/-- `ISSUE_RD` (R77, R59, R14, R15): its rejections, and the frame and the arming of an accepted one. -/
def Obligations.IssueReadEvent : Prop :=
  ∀ (s : State) (addr : Addr) (count : Word) (dest : Dest),
    (s.linkOpen = false → exec (.issueRd addr count dest) s =
      .next { s with outputs := s.outputs ++ [.reject .transportUnavailable] }) ∧
    (s.linkOpen = true → s.busy = true → exec (.issueRd addr count dest) s =
      .next { s with outputs := s.outputs ++ [.reject .busy] }) ∧
    (s.linkOpen = true → s.busy = false → ∃ f : List Byte,
      exec (.issueRd addr count dest) s = .next { s with
        expLen := 9 + 4 * max count.toNat 1, pendValid := true, pendDest := dest, pendCount := count, busy := true,
        outputs := s.outputs ++ [.tx f] } ∧
      f.map BitVec.toNat =
        let b := [0x7D, 16 * (addr.toNat / 256 % 16) + 1, addr.toNat % 256, count.toNat % 256, count.toNat / 256 % 256,
          count.toNat / 65536 % 256, count.toNat / 16777216 % 256]
        b ++ [(0x132 - b.sum % 256) % 256])

/-- `ISSUE_WR` (R78, R59, R14, R15). -/
def Obligations.IssueWriteEvent : Prop :=
  ∀ (s : State) (addr : Addr) (value : Word),
    (s.linkOpen = false → exec (.issueWr addr value) s =
      .next { s with outputs := s.outputs ++ [.reject .transportUnavailable] }) ∧
    (s.linkOpen = true → s.busy = true → exec (.issueWr addr value) s =
      .next { s with outputs := s.outputs ++ [.reject .busy] }) ∧
    (s.linkOpen = true → s.busy = false → ∃ f : List Byte,
      exec (.issueWr addr value) s = .next { s with
        expLen := 8, pendValid := false, busy := true, outputs := s.outputs ++ [.tx f] } ∧
      f.map BitVec.toNat =
        let b := [0x7D, 16 * (addr.toNat / 256 % 16) + 2, addr.toNat % 256, value.toNat % 256, value.toNat / 256 % 256,
          value.toNat / 65536 % 256, value.toNat / 16777216 % 256]
        b ++ [(0x132 - b.sum % 256) % 256])

/-- Who is rejected, and that a rejection changes nothing (R88, R91, R93). -/
def Obligations.OnlyIssuesAreRejected : Prop :=
  ∀ (s t : State) (i : Instr), exec i s = .next t →
    (t.outputs = s.outputs ++ [.reject .transportUnavailable] ↔ isIssue i = true ∧ s.linkOpen = false) ∧
    (t.outputs = s.outputs ++ [.reject .busy] ↔ isIssue i = true ∧ s.linkOpen = true ∧ s.busy = true) ∧
    (∀ f, t.outputs = s.outputs ++ [.reject f] → t = { s with outputs := s.outputs ++ [.reject f] } ∧
      (f = .transportUnavailable ∨ f = .busy))

/-- No operation but an `ISSUE` looks at `link_open` (R11, R88): from the other value of it the same happens. -/
def Obligations.OnlyIssuesLookAtTheLink : Prop :=
  ∀ (s t : State) (i : Instr) (up : Bool), isIssue i = false → exec i s = .next t →
    ∃ t', exec i { s with linkOpen := up } = .next t' ∧ { t' with linkOpen := t.linkOpen } = t

/-- The copy phase and the frame of everything that receives (R79, R16, R24, R94): the stored part of the chunk stands at
`rx_count` and upward, every other byte of the buffer is as before, and so is every field `RX` does not write. -/
def Obligations.ArrivingBytesAreStored : Prop :=
  ∀ (s t : State) (i : Instr) (ch : List Byte), bytesArriving i = some ch → exec i s = .next t →
    (∀ a, s.rxCount ≤ a → a < s.rxCount + min ch.length (s.bufCap - s.rxCount) →
      t.buf.read a = ch[a - s.rxCount]?) ∧
    (∀ a, (a < s.rxCount ∨ s.rxCount + min ch.length (s.bufCap - s.rxCount) ≤ a) → t.buf.read a = s.buf.read a) ∧
    (s.buf.wf → t.buf.wf) ∧
    t.linkOpen = s.linkOpen ∧ t.expLen = s.expLen ∧ t.pendDest = s.pendDest ∧ t.pendCount = s.pendCount ∧
    t.bufCap = s.bufCap ∧ t.input = s.input ∧ t.results = s.results

/-- Bytes that complete nothing (R79, R83, R80): in every state, while idle and while closed too, they are counted, capped at
the capacity, and nothing is output. -/
def Obligations.ArrivalWithoutCompletion : Prop :=
  ∀ (s : State) (i : Instr) (ch : List Byte), bytesArriving i = some ch →
    ¬ (s.busy = true ∧ s.expLen ≤ s.rxCount + min ch.length (s.bufCap - s.rxCount)) →
    ∃ t, exec i s = .next t ∧ t.rxCount = s.rxCount + min ch.length (s.bufCap - s.rxCount) ∧
      t.busy = s.busy ∧ t.pendValid = s.pendValid ∧ t.outputs = s.outputs

/-- The completion of a read (R80, R68, R69, R70, R81): `b` is the first `exp_len` bytes received, `n` the count of values.
A bad checksum gives `DONE(0)` alone; a good one the values, little-endian from offset 8, before `DONE(1)`, if the echoed
control code is 1. -/
def Obligations.CompletionOfARead : Prop :=
  ∀ (s : State) (i : Instr) (ch old : List Byte) (n : Nat) (b : List Byte), s.Inv → s.busy = true → s.pendValid = true →
    s.Holds old → bytesArriving i = some ch → n = max s.pendCount.toNat 1 → b = (old ++ ch).take (9 + 4 * n) →
    9 + 4 * n ≤ s.rxCount + ch.length → 9 + 4 * n ≤ s.bufCap →
    ∃ t, exec i s = .next t ∧ t.rxCount = 0 ∧ t.pendValid = false ∧ t.busy = false ∧
      (((b.drop 8).map BitVec.toNat).sum % 256 ≠ 0x32 → t.outputs = s.outputs ++ [.done false]) ∧
      (((b.drop 8).map BitVec.toNat).sum % 256 = 0x32 → (b.getD 1 0).toNat % 16 ≠ 1 →
        t.outputs = s.outputs ++ [.done true]) ∧
      (((b.drop 8).map BitVec.toNat).sum % 256 = 0x32 → (b.getD 1 0).toNat % 16 = 1 → ∃ v : List Word,
        t.outputs = s.outputs ++ [.wb s.pendDest v, .done true] ∧ v.length = n ∧
        ∀ j, j < n → (v.getD j 0).toNat = (b.getD (8 + 4 * j) 0).toNat + 256 * (b.getD (9 + 4 * j) 0).toNat +
          65536 * (b.getD (10 + 4 * j) 0).toNat + 16777216 * (b.getD (11 + 4 * j) 0).toNat)

/-- The completion of a write (R80, R67): no write-back, and `DONE` says whether the eight bytes sum to 0x32. -/
def Obligations.CompletionOfAWrite : Prop :=
  ∀ (s : State) (i : Instr) (ch old : List Byte), s.Inv → s.busy = true → s.pendValid = false → s.Holds old →
    bytesArriving i = some ch → 8 ≤ s.rxCount + ch.length →
    ∃ t, exec i s = .next t ∧ t.rxCount = 0 ∧ t.pendValid = false ∧ t.busy = false ∧
      t.outputs = s.outputs ++ [.done (decide ((((old ++ ch).take 8).map BitVec.toNat).sum % 256 = 0x32))]

/-- Surplus bytes (R84): what follows the frame in the same chunk is lost; the state is observably the one without it. -/
def Obligations.SurplusBytesAreLost : Prop :=
  ∀ (s : State) (c1 c2 : List Byte), s.Inv → s.busy = true → s.rxCount + c1.length = s.expLen → s.expLen ≤ s.bufCap →
    ∃ t1 t, exec (.rx c1) s = .next t1 ∧ exec (.rx (c1 ++ c2)) s = .next t ∧ t.rxCount = 0 ∧ t.SameObservable t1

/-- An empty chunk (R85) completes a frame exactly when enough bytes were there already, and those can only have been there
before the request was issued. -/
def Obligations.EmptyChunkEvent : Prop :=
  (∀ s : State, ¬ (s.busy = true ∧ s.expLen ≤ s.rxCount) → exec (.rx []) s = .next s) ∧
  (∀ s : State, s.Inv → s.busy = true → s.expLen ≤ s.rxCount →
    ∃ t os ok, exec (.rx []) s = .next t ∧ t.buf = s.buf ∧ t.busy = false ∧ t.outputs = s.outputs ++ os ++ [.done ok]) ∧
  (∀ (s t : State) (i : Instr), exec i s = .next t → t.busy = true → t.expLen ≤ t.rxCount →
    (s.busy = true ∧ s.expLen ≤ s.rxCount ∧ bytesArriving i = none) ∨
    (s.busy = false ∧ isIssue i = true ∧ t.rxCount = s.rxCount))

/-- The chunking law (R86): a first part that does not complete the frame may be delivered by itself; without surplus every
split of a chunk gives the same; after a completing first part the rest becomes stray bytes of the idle state. -/
def Obligations.ChunkingLaw : Prop :=
  (∀ (s : State) (c1 c2 : List Byte), s.busy = true → s.rxCount + c1.length < s.expLen →
    ∃ s1, exec (.rx c1) s = .next s1 ∧ exec (.rx c2) s1 = exec (.rx (c1 ++ c2)) s) ∧
  (∀ (s : State) (c : List Byte) (cs : List (List Byte)), s.busy = true →
    s.rxCount + (c :: cs).flatten.length ≤ s.expLen →
    execAll ((c :: cs).map Instr.rx) s = exec (.rx (c :: cs).flatten) s) ∧
  (∀ (s : State) (c1 c2 : List Byte), s.Inv → s.busy = true → s.expLen ≤ s.rxCount + c1.length → s.expLen ≤ s.bufCap →
    ∃ s1 s2 t, exec (.rx c1) s = .next s1 ∧ exec (.rx c2) s1 = .next s2 ∧ exec (.rx (c1 ++ c2)) s = .next t ∧
      t.outputs = s2.outputs ∧ t.rxCount = 0 ∧ s2.rxCount = min c2.length s.bufCap ∧
      ∀ a, a < s2.rxCount → s2.buf.read a = c2[a]?)

/-- What clears the reassembly (R103): `RESET`, `CLOSE` and a completion, and nothing else. -/
def Obligations.OnlyThreeThingsClearTheReassembly : Prop :=
  ∀ (s t : State) (i : Instr), s.Inv → exec i s = .next t →
    (Cancels i → t.rxCount = 0 ∧ t.pendValid = false ∧ t.busy = false ∧ t.linkOpen = false ∧ t.outputs = s.outputs) ∧
    (∀ ch, bytesArriving i = some ch → s.busy = true →
      s.expLen ≤ s.rxCount + min ch.length (s.bufCap - s.rxCount) →
      t.rxCount = 0 ∧ t.pendValid = false ∧ t.busy = false ∧ t.linkOpen = true ∧ s.linkOpen = true ∧
        ∃ os ok, t.outputs = s.outputs ++ os ++ [.done ok]) ∧
    (t.rxCount < s.rxCount → Cancels i ∨ ∃ ch, bytesArriving i = some ch ∧ s.busy = true ∧
      s.expLen ≤ s.rxCount + min ch.length (s.bufCap - s.rxCount))

/-! ## The frames -/

/-- A response frame is the arrival of its bytes (R47, R48, R43; that an instruction stands for the frame is log 11). -/
def Obligations.ResponseFramesAreReceived : Prop :=
  (∀ (p : Packet) (s : State), ∃ bs : List Byte, exec (.wrResp p) s = exec (.rx bs) s ∧
    bs.map BitVec.toNat = [p.hdr.toNat, 16 * (p.addr.toNat / 256) + p.ctl.toNat, p.addr.toNat % 256,
      p.payload.toNat % 256, p.payload.toNat / 256 % 256, p.payload.toNat / 65536 % 256, p.payload.toNat / 16777216,
      p.ck.toNat]) ∧
  (∀ (p : Packet) (vs : List Word) (ck : Byte) (s : State), ∃ bs : List Byte,
    exec (.rdResp p vs ck) s = exec (.rx bs) s ∧ bs.length = 9 + 4 * vs.length ∧
    (bs.take 8).map BitVec.toNat = [p.hdr.toNat, 16 * (p.addr.toNat / 256) + p.ctl.toNat, p.addr.toNat % 256,
      p.payload.toNat % 256, p.payload.toNat / 256 % 256, p.payload.toNat / 65536 % 256, p.payload.toNat / 16777216,
      p.ck.toNat] ∧
    (∀ j, j < vs.length → (vs.getD j 0).toNat = (bs.getD (8 + 4 * j) 0).toNat + 256 * (bs.getD (9 + 4 * j) 0).toNat +
      65536 * (bs.getD (10 + 4 * j) 0).toNat + 16777216 * (bs.getD (11 + 4 * j) 0).toNat) ∧
    bs[8 + 4 * vs.length]? = some ck)

/-- A write response in an aligned buffer answers the write in flight (R47, R67, R80, R94). -/
def Obligations.WriteResponseAnswersTheWrite : Prop :=
  ∀ (s : State) (p : Packet), s.Inv → s.busy = true → s.pendValid = false → s.rxCount = 0 →
    ∃ t, exec (.wrResp p) s = .next t ∧ t.rxCount = 0 ∧ t.pendValid = false ∧ t.busy = false ∧
      controlState t = .idle ∧
      t.outputs = s.outputs ++ [.done (decide (p.ck.toNat = (0x132 - (p.hdr.toNat +
        (16 * (p.addr.toNat / 256) + p.ctl.toNat) + p.addr.toNat % 256 + p.payload.toNat % 256 +
        p.payload.toNat / 256 % 256 + p.payload.toNat / 65536 % 256 + p.payload.toNat / 16777216) % 256) % 256))]

/-- A read response in an aligned buffer hands exactly its values to the recorded destination (R48, R68, R80, R81, R94). -/
def Obligations.ReadResponseDeliversItsValues : Prop :=
  ∀ (s : State) (echo : Packet) (vs : List Word) (ck : Byte), s.Inv → s.busy = true → s.pendValid = true →
    s.rxCount = 0 → vs.length = max s.pendCount.toNat 1 → 9 + 4 * vs.length ≤ s.bufCap →
    ∃ t, exec (.rdResp echo vs ck) s = .next t ∧ t.rxCount = 0 ∧ t.pendValid = false ∧ t.busy = false ∧
      controlState t = .idle ∧
      t.outputs = s.outputs ++
        if ck.toNat = (0x132 - (vs.map (fun v => v.toNat % 256 + v.toNat / 256 % 256 + v.toNat / 65536 % 256 +
            v.toNat / 16777216)).sum % 256) % 256 then
          if echo.ctl = 1 then [.wb s.pendDest vs, .done true] else [.done true]
        else [.done false]

/-- A request frame leaves the block only in the handling of an `ISSUE` (R45, R46, R77, R78, R107); that the rows `RD_REQ` and
`WR_REQ` stand for that event, spelled as the frame it sends, is the model's reading (log 9). Rejected while closed and while
busy, else the reassembly is armed and the encoder's frame sent. -/
def Obligations.RequestFramesAreSent : Prop :=
  ∀ (s : State) (addr : WireAddr) (read : PendingRead) (w : Word),
    (s.linkOpen = false →
      exec (.rdReq addr read) s = .next { s with outputs := s.outputs ++ [.reject .transportUnavailable] } ∧
      exec (.wrReq addr w) s = .next { s with outputs := s.outputs ++ [.reject .transportUnavailable] }) ∧
    (s.linkOpen = true → s.busy = true →
      exec (.rdReq addr read) s = .next { s with outputs := s.outputs ++ [.reject .busy] } ∧
      exec (.wrReq addr w) s = .next { s with outputs := s.outputs ++ [.reject .busy] }) ∧
    (s.linkOpen = true → s.busy = false → ∃ f g : List Byte,
      exec (.rdReq addr read) s = .next { s with
        expLen := 9 + 4 * max read.count.toNat 1, pendValid := true, pendDest := read.dest, pendCount := read.count,
        busy := true, outputs := s.outputs ++ [.tx f] } ∧
      exec (.wrReq addr w) s = .next { s with
        expLen := 8, pendValid := false, busy := true, outputs := s.outputs ++ [.tx g] } ∧
      (f.map BitVec.toNat =
        let b := [0x7D, 16 * (addr.toNat / 256) + 1, addr.toNat % 256, read.count.toNat % 256,
          read.count.toNat / 256 % 256, read.count.toNat / 65536 % 256, read.count.toNat / 16777216]
        b ++ [(0x132 - b.sum % 256) % 256]) ∧
      (g.map BitVec.toNat =
        let b := [0x7D, 16 * (addr.toNat / 256) + 2, addr.toNat % 256, w.toNat % 256, w.toNat / 256 % 256,
          w.toNat / 65536 % 256, w.toNat / 16777216]
        b ++ [(0x132 - b.sum % 256) % 256]))

/-! ## The pure functions -/

/-- `CKSUM` (R57, R24): complement of the 8-bit sum, then plus 0x33, then truncated; nothing but the result port changes. -/
def Obligations.ChecksumFunction : Prop :=
  (∃ bs, decodeTableWord 4 8 = some (.cksum bs)) ∧
  ∀ (s : State) (bs : List Byte), ∃ c : Byte,
    exec (.cksum bs) s = .next { s with results := s.results ++ [.byte c] } ∧
    c.toNat = ((255 - (bs.map BitVec.toNat).sum % 256) + 0x33) % 256 ∧
    c.toNat = (0x132 - (bs.map BitVec.toNat).sum % 256) % 256

/-- `ENC_RD` and `ENC_WR` (R59, R60, R61, R49, R50, R51): the eight bytes, bits 15:12 of the address ignored. -/
def Obligations.EncodeFunctions : Prop :=
  (∃ a c, decodeTableWord 4 9 = some (.encRd a c)) ∧ (∃ a v, decodeTableWord 4 10 = some (.encWr a v)) ∧
  ∀ (s : State) (addr : Addr) (w : Word), ∃ f g : List Byte,
    exec (.encRd addr w) s = .next { s with results := s.results ++ [.frame f] } ∧
    exec (.encWr addr w) s = .next { s with results := s.results ++ [.frame g] } ∧
    (f.map BitVec.toNat =
      let b := [0x7D, 16 * (addr.toNat / 256 % 16) + 1, addr.toNat % 256, w.toNat % 256, w.toNat / 256 % 256,
        w.toNat / 65536 % 256, w.toNat / 16777216 % 256]
      b ++ [(0x132 - b.sum % 256) % 256]) ∧
    (g.map BitVec.toNat =
      let b := [0x7D, 16 * (addr.toNat / 256 % 16) + 2, addr.toNat % 256, w.toNat % 256, w.toNat / 256 % 256,
        w.toNat / 65536 % 256, w.toNat / 16777216 % 256]
      b ++ [(0x132 - b.sum % 256) % 256])

/-- `EXP_LEN` (R66, R65): 8, or `9 + 4 max(count, 1)` without wrap; never 9 to 12, never even for a read. -/
def Obligations.ExpectedLengthFunction : Prop :=
  (∃ k c, decodeTableWord 4 11 = some (.expLen k c)) ∧
  ∀ (s : State) (k : Kind) (c : Word), ∃ n,
    exec (.expLen k c) s = .next { s with results := s.results ++ [.length n] } ∧
    (k = .wr → n = 8) ∧ (k = .rd → n = 9 + 4 * max c.toNat 1 ∧ n % 2 = 1) ∧ ¬ (9 ≤ n ∧ n ≤ 12)

/-- `DEC_RESP` (R70, R67, R68, R69): refused off its domain; a mismatch, or control, address and values. -/
def Obligations.DecodeResponseFunction : Prop :=
  (∃ k c b, decodeTableWord 4 12 = some (.decResp k c b)) ∧
  ∀ (s : State) (k : Kind) (c : Word) (b : List Byte) (n : Nat), n = max c.toNat 1 →
    (b.length ≠ (if k = .wr then 8 else 9 + 4 * n) →
      ∃ e, exec (.decResp k c b) s = .refused (.decRespLength b.length e)) ∧
    (b.length = (if k = .wr then 8 else 9 + 4 * n) →
      ((if k = .wr then b else b.drop 8).map BitVec.toNat).sum % 256 ≠ 0x32 →
      exec (.decResp k c b) s = .next { s with results := s.results ++ [.response .checksumMismatch] }) ∧
    (b.length = (if k = .wr then 8 else 9 + 4 * n) →
      ((if k = .wr then b else b.drop 8).map BitVec.toNat).sum % 256 = 0x32 →
      ∃ (ctl : BitVec 4) (addr : Addr) (v : List Word),
        exec (.decResp k c b) s = .next { s with results := s.results ++ [.response (.decoded ctl addr v)] } ∧
        ctl.toNat = (b.getD 1 0).toNat % 16 ∧
        addr.toNat = 256 * ((b.getD 1 0).toNat / 16) + (b.getD 2 0).toNat ∧
        v.length = (if k = .rd ∧ ctl = 1 then n else 0) ∧
        ∀ j, j < v.length → (v.getD j 0).toNat = (b.getD (8 + 4 * j) 0).toNat + 256 * (b.getD (9 + 4 * j) 0).toNat +
          65536 * (b.getD (10 + 4 * j) 0).toNat + 16777216 * (b.getD (11 + 4 * j) 0).toNat)

/-- What `DEC_RESP` of a read does not check (R72): header, echoed payload, the echo's own checksum byte. -/
def Obligations.DecoderIgnoresTheRestOfTheEcho : Prop :=
  ∀ (s : State) (c : Word) (b b' : List Byte), b.length = b'.length → b[1]? = b'[1]? → b[2]? = b'[2]? →
    b.drop 8 = b'.drop 8 → exec (.decResp .rd c b) s = exec (.decResp .rd c b') s

/-- Every frame the encoder builds passes the packet check (R62). -/
def Obligations.EncodedFramesPassTheCheck : Prop :=
  ∀ (ctl : BitVec 4) (addr : Addr) (payload : Word), pktOk (pkt ctl addr payload) = true ∧
    ((pkt ctl addr payload).map BitVec.toNat).sum % 256 = 0x32

/-- Corruption of one byte is always caught (R63): of a summed byte, and of the checksum byte of a valid frame; two bytes can
cancel, and the sum does not see order. -/
def Obligations.OneCorruptedByteIsCaught : Prop :=
  (∀ (b b' : List Byte) (i : Nat), b.length = b'.length → b[i]? ≠ b'[i]? → (∀ j, j ≠ i → b[j]? = b'[j]?) →
    cksum b ≠ cksum b') ∧
  (∀ (f f' : List Byte), f.length = 8 → f'.length = 8 → f.take 7 = f'.take 7 → f ≠ f' → pktOk f = true →
    pktOk f' = false) ∧
  (∀ b b' : List Byte, b.Perm b' → cksum b = cksum b') ∧
  (∀ (pre mid post : List Byte) (x y : Byte),
    cksum (pre ++ [x] ++ mid ++ [y] ++ post) = cksum (pre ++ [x + 1] ++ mid ++ [y - 1] ++ post))

/-- The encoder loses nothing but `addr[15:12]` (R64), and the fields are read back from its bytes. -/
def Obligations.EncoderIsInjective : Prop :=
  (∀ (c c' : BitVec 4) (a a' : Addr) (p p' : Word), a.toNat < 0x1000 → a'.toNat < 0x1000 →
    pkt c a p = pkt c' a' p' → c = c' ∧ a = a' ∧ p = p') ∧
  (∀ (c : BitVec 4) (a : Addr) (p : Word), a.toNat < 0x1000 → ∃ b0 b1 b2 b3 b4 b5 b6 b7 : Byte,
    pkt c a p = [b0, b1, b2, b3, b4, b5, b6, b7] ∧ c.toNat = b1.toNat % 16 ∧
    a.toNat = 256 * (b1.toNat / 16) + b2.toNat ∧
    p.toNat = b3.toNat + 256 * b4.toNat + 65536 * b5.toNat + 16777216 * b6.toNat) ∧
  (∀ (c : BitVec 4) (a a' : Addr) (p : Word), a.toNat % 0x1000 = a'.toNat % 0x1000 → pkt c a p = pkt c a' p)

/-- Round trip of the codec (R71): a synthetic response to a request decodes to the values put in, for `c = 0` one value. -/
def Obligations.ResponsesToEncodedRequestsDecode : Prop :=
  (∀ (s : State) (a : Addr) (c : Word) (v : List Word) (ck : Byte), a.toNat < 0x1000 → v.length = max c.toNat 1 →
    ck.toNat = (0x132 - (v.map (fun w => w.toNat % 256 + w.toNat / 256 % 256 + w.toNat / 65536 % 256 +
      w.toNat / 16777216)).sum % 256) % 256 →
    exec (.decResp .rd c (encodeRead a c ++ bytesOf v ++ [ck])) s =
      .next { s with results := s.results ++ [.response (.decoded 1 a v)] }) ∧
  (∀ (s : State) (a : Addr) (c w : Word), a.toNat < 0x1000 → exec (.decResp .wr c (encodeWrite a w)) s =
    .next { s with results := s.results ++ [.response (.decoded 2 a [])] })

/-- `PKT_OK` (R67): byte 7 against the checksum of bytes 0 to 6, which is a sum of 0x32 and so does not see order. -/
def Obligations.PacketCheckIsASymmetricSum : Prop :=
  ∀ f : List Byte, f.length = 8 →
    (pktOk f = true ↔ (f.getD 7 0).toNat = (0x132 - ((f.take 7).map BitVec.toNat).sum % 256) % 256) ∧
    (pktOk f = true ↔ (f.map BitVec.toNat).sum % 256 = 0x32) ∧
    ∀ g : List Byte, f.Perm g → pktOk g = pktOk f

/-! ## The whole machine -/

/-- A read that does not fit the buffer can never complete (R111, U3): after its `ISSUE_RD`, whatever happens but `CLOSE`
and `RESET`, the block stays in WAIT and makes no `WB` and no `DONE`. -/
def Obligations.OversizedReadNeverCompletes : Prop :=
  ∀ (s t : State) (addr : Addr) (count : Word) (dest : Dest) (is : List Instr), s.Inv → s.linkOpen = true →
    s.busy = false → Config.maxCount s.bufCap < count.toNat → (∀ i ∈ is, ¬ Cancels i) →
    execAll (.issueRd addr count dest :: is) s = .next t →
    controlState t = .wait ∧ t.expLen = 9 + 4 * count.toNat ∧ t.outputs.filter isAnswer = s.outputs.filter isAnswer

/-- The control states and how they are entered and left (R20, R82). -/
def Obligations.ControlStateTransitions : Prop :=
  ∀ (s t : State) (i : Instr), s.Inv → exec i s = .next t →
    (controlState s = .closed → s.busy = false ∧ s.pendValid = false) ∧
    (controlState s = .closed → controlState t ≠ .closed → i = .openLink ∧ controlState t = .idle) ∧
    (controlState s = .idle → controlState t = .wait → isIssue i = true) ∧
    (controlState s = .idle → controlState t = .closed → Cancels i) ∧
    (controlState s = .wait → controlState t = .closed → Cancels i) ∧
    (controlState s = .wait → controlState t = .idle → ∃ ch os ok, bytesArriving i = some ch ∧
      s.expLen ≤ s.rxCount + min ch.length (s.bufCap - s.rxCount) ∧ t.outputs = s.outputs ++ os ++ [.done ok]) ∧
    (Cancels i → controlState t = .closed)

/-- With nothing in flight no output arises without an `ISSUE` (R107), spelled as the event or as its frame (log 9). -/
def Obligations.QuiescentUntilAnIssue : Prop :=
  ∀ (s t : State) (is : List Instr), s.Inv → s.busy = false →
    (∀ i ∈ is, isIssue i = false) → execAll is s = .next t →
    t.outputs = s.outputs ∧ t.busy = false

/-- What R22 says can never be observed is not observed: two states that differ in nothing else take the same step (R41). -/
def Obligations.HiddenStateIsNeverObserved : Prop :=
  ∀ s t s' : State, s.Inv → t.Inv → s.SameObservable t → step s = .next s' →
    ∃ t', step t = .next t' ∧ s'.SameObservable t'

/-- The output lists are those of R26, and each event has those R27 gives it. -/
def Obligations.OutputsOfEachEvent : Prop :=
  ∀ (s t : State) (i : Instr), s.Inv → exec i s = .next t → ∃ os, t.outputs = s.outputs ++ os ∧ PossibleOutputs os ∧
    (isIssue i = false → bytesArriving i = none → os = []) ∧
    (isIssue i = true → s.linkOpen = false → os = [.reject .transportUnavailable]) ∧
    (isIssue i = true → s.linkOpen = true → s.busy = true → os = [.reject .busy]) ∧
    (isIssue i = true → s.linkOpen = true → s.busy = false → ∃ f, os = [.tx f]) ∧
    (bytesArriving i ≠ none → os = [] ∨ (∃ ok, os = [.done ok]) ∨ ∃ v, os = [.wb s.pendDest v, .done true] ∧
      s.pendValid = true ∧ v.length = max s.pendCount.toNat 1)

/-- The values written back are the little-endian words of the buffer at `8 + 4j` (R31, R7's `MemRead`, R34). -/
def Obligations.WrittenBackValuesAreBufferWords : Prop :=
  ∀ (s t : State) (i : Instr) (d : Dest) (v : List Word), s.Inv → exec i s = .next t →
    t.outputs = s.outputs ++ [.wb d v, .done true] → d = s.pendDest ∧
      ∀ j, j < v.length → t.buf.memRead (8 + 4 * j) 4 = some (v.getD j 0).toNat

/-- The block "never computes with it, compares it or dereferences it" (R30): whatever the destinations are exchanged for, the
same happens with the exchanged ones. What `DEST` is is open (log 5). -/
def Obligations.DestinationsAreNeverLookedInto : Prop :=
  ∀ (f : Dest → Dest) (s t : State) (i : Instr), exec i s = .next t →
    exec (renameDest f i) (s.mapDest f) = .next (t.mapDest f)
end

