-- ==== Sys2Proof/Laws/Operands.lean ====
section
/-! SUPPORT. The laws of byte order, of the address and control byte, of the checksum and of the Packet. -/

namespace Sys2Proof.Machine

/-! ## Byte order -/

@[simp] theorem le32_length (v : Word) : (le32 v).length = 4 := rfl

theorem toNat_append_byte {n : Nat} (x : BitVec n) (y : Byte) : (x ++ y).toNat = 256 * x.toNat + y.toNat := by
  rw [BitVec.toNat_append, Nat.shiftLeft_eq, ← Nat.shiftLeft_eq, ← Nat.shiftLeft_add_eq_or_of_lt y.isLt,
    Nat.shiftLeft_eq]
  omega

/-- `UNLE32` is R7's sum. -/
theorem unle32_toNat (b0 b1 b2 b3 : Byte) :
    (unle32 b0 b1 b2 b3).toNat = b0.toNat + 256 * b1.toNat + 65536 * b2.toNat + 16777216 * b3.toNat := by
  unfold unle32
  simp only [toNat_append_byte]
  omega

@[simp] theorem unle32_le32 (v : Word) :
    unle32 (v.extractLsb' 0 8) (v.extractLsb' 8 8) (v.extractLsb' 16 8) (v.extractLsb' 24 8) = v := by
  apply BitVec.eq_of_toNat_eq
  have := v.isLt
  rw [unle32_toNat]
  simp only [BitVec.extractLsb'_toNat, Nat.shiftRight_eq_div_pow]
  omega

@[simp] theorem unle16_le16 (v : Addr) : unle16 (v.extractLsb' 0 8) (v.extractLsb' 8 8) = v := by
  apply BitVec.eq_of_toNat_eq
  have := v.isLt
  rw [unle16, toNat_append_byte]
  simp only [BitVec.extractLsb'_toNat, Nat.shiftRight_eq_div_pow]
  omega

/-- `LE32` is R7's four bytes. -/
theorem le32_toNat (v : Word) :
    (le32 v).map BitVec.toNat =
      [v.toNat % 256, v.toNat / 256 % 256, v.toNat / 65536 % 256, v.toNat / 16777216 % 256] := by
  simp [le32, Nat.shiftRight_eq_div_pow]

theorem le32_unle32 (b0 b1 b2 b3 : Byte) : le32 (unle32 b0 b1 b2 b3) = [b0, b1, b2, b3] := by
  have h : (le32 (unle32 b0 b1 b2 b3)).map BitVec.toNat = [b0, b1, b2, b3].map BitVec.toNat := by
    rw [le32_toNat, unle32_toNat]
    have := b0.isLt; have := b1.isLt; have := b2.isLt; have := b3.isLt
    simp only [List.map_cons, List.map_nil, List.cons.injEq, and_true]
    omega
  exact List.map_injective_iff.mpr (fun _ _ h => BitVec.eq_of_toNat_eq h) h

theorem le16_unle16 (b0 b1 : Byte) : le16 (unle16 b0 b1) = [b0, b1] := by
  have hn : (unle16 b0 b1).toNat = 256 * b1.toNat + b0.toNat := toNat_append_byte b1 b0
  have := b0.isLt; have := b1.isLt
  simp only [le16, List.cons.injEq, and_true]
  constructor <;> apply BitVec.eq_of_toNat_eq <;>
    simp [BitVec.extractLsb'_toNat, Nat.shiftRight_eq_div_pow, hn] <;> omega

@[simp] theorem wordsOf_nil : wordsOf [] = [] := rfl

@[simp] theorem wordsOf_le32_append (v : Word) (bs : List Byte) : wordsOf (le32 v ++ bs) = v :: wordsOf bs := by
  simp [le32, wordsOf]

@[simp] theorem bytesOf_nil : bytesOf [] = [] := rfl

@[simp] theorem bytesOf_cons (v : Word) (vs : List Word) : bytesOf (v :: vs) = le32 v ++ bytesOf vs := rfl

/-- Splitting a run of words into bytes and joining them again. -/
@[simp] theorem wordsOf_bytesOf (vs : List Word) : wordsOf (bytesOf vs) = vs := by
  induction vs with
  | nil => rfl
  | cons v vs ih => rw [bytesOf_cons, wordsOf_le32_append, ih]

@[simp] theorem bytesOf_length (vs : List Word) : (bytesOf vs).length = 4 * vs.length := by
  induction vs with
  | nil => rfl
  | cons v vs ih => simp [ih]; omega

theorem wordsOf_length (n : Nat) : ∀ bs : List Byte, bs.length = 4 * n → (wordsOf bs).length = n := by
  induction n with
  | zero => intro bs h; simp [List.eq_nil_of_length_eq_zero h]
  | succ n ih =>
    intro bs h
    match bs, h with
    | b0 :: b1 :: b2 :: b3 :: bs, h =>
      simp only [List.length_cons] at h
      simp [wordsOf, ih bs (by omega)]
    | [], h => simp at h
    | [_], h => simp at h; omega
    | [_, _], h => simp at h; omega
    | [_, _, _], h => simp at h; omega

/-- Joining bytes into words and splitting them again, for a whole number of words. -/
theorem bytesOf_wordsOf (n : Nat) : ∀ bs : List Byte, bs.length = 4 * n → bytesOf (wordsOf bs) = bs := by
  induction n with
  | zero => intro bs h; simp [List.eq_nil_of_length_eq_zero h]
  | succ n ih =>
    intro bs h
    match bs, h with
    | b0 :: b1 :: b2 :: b3 :: bs, h =>
      simp only [List.length_cons] at h
      simp [wordsOf, le32_unle32, ih bs (by omega)]
    | [], h => simp at h
    | [_], h => simp at h; omega
    | [_, _], h => simp at h; omega
    | [_, _, _], h => simp at h; omega

/-- Word `i` of a run of bytes is `UNLE32` of bytes `4i` to `4i + 3` (R31, R70). -/
theorem wordsOf_getElem? (i : Nat) : ∀ bs : List Byte, ∀ b0 b1 b2 b3 : Byte,
    bs[4 * i]? = some b0 → bs[4 * i + 1]? = some b1 → bs[4 * i + 2]? = some b2 → bs[4 * i + 3]? = some b3 →
      (wordsOf bs)[i]? = some (unle32 b0 b1 b2 b3) := by
  induction i with
  | zero =>
    intro bs b0 b1 b2 b3 h0 h1 h2 h3
    match bs, h0, h1, h2, h3 with
    | c0 :: c1 :: c2 :: c3 :: bs, h0, h1, h2, h3 => simp_all [wordsOf]
    | [], h0, _, _, _ => simp at h0
    | [_], _, h1, _, _ => simp at h1
    | [_, _], _, _, h2, _ => simp at h2
    | [_, _, _], _, _, _, h3 => simp at h3
  | succ i ih =>
    intro bs b0 b1 b2 b3 h0 h1 h2 h3
    match bs, h0, h1, h2, h3 with
    | c0 :: c1 :: c2 :: c3 :: bs, h0, h1, h2, h3 =>
      simp only [Nat.mul_succ, Nat.add_right_comm _ 4, List.getElem?_cons_succ] at h0 h1 h2 h3
      simpa [wordsOf] using ih bs b0 b1 b2 b3 h0 h1 h2 h3
    | [], h0, _, _, _ => simp at h0
    | [_], _, _, _, h3 => simp [Nat.mul_succ] at h3
    | [_, _], _, _, _, h3 => simp [Nat.mul_succ] at h3
    | [_, _, _], _, _, _, h3 => simp [Nat.mul_succ] at h3

/-! ## Address and control byte -/

theorem ctlByte_toNat (h c : BitVec 4) : (ctlByte h c).toNat = 16 * h.toNat + c.toNat := by
  unfold ctlByte
  rw [BitVec.toNat_append, ← Nat.shiftLeft_add_eq_or_of_lt c.isLt, Nat.shiftLeft_eq]
  omega

theorem addrHi_toNat (a : WireAddr) : (addrHi a).toNat = a.toNat / 256 := by
  have := a.isLt
  simp [addrHi, BitVec.extractLsb'_toNat, Nat.shiftRight_eq_div_pow]
  omega

theorem addrLo_toNat (a : WireAddr) : (addrLo a).toNat = a.toNat % 256 := by
  simp [addrLo, BitVec.extractLsb'_toNat]

theorem wireAddr_toNat (a : Addr) : (wireAddr a).toNat = a.toNat % 4096 := by
  simp [wireAddr]

theorem joinAddr_toNat (b1 b2 : Byte) : (joinAddr b1 b2).toNat = 256 * (b1.toNat / 16) + b2.toNat := by
  have := b1.isLt
  unfold joinAddr
  rw [toNat_append_byte]
  simp [BitVec.extractLsb'_toNat, Nat.shiftRight_eq_div_pow]
  omega

theorem ctlOf_toNat (b1 : Byte) : (ctlOf b1).toNat = b1.toNat % 16 := by
  simp [ctlOf, BitVec.extractLsb'_toNat]

@[simp] theorem joinAddr_split (a : WireAddr) (c : BitVec 4) : joinAddr (ctlByte (addrHi a) c) (addrLo a) = a := by
  apply BitVec.eq_of_toNat_eq
  have := c.isLt
  rw [joinAddr_toNat, ctlByte_toNat, addrHi_toNat, addrLo_toNat]
  omega

@[simp] theorem ctlOf_ctlByte (h c : BitVec 4) : ctlOf (ctlByte h c) = c := by
  apply BitVec.eq_of_toNat_eq
  have := c.isLt
  rw [ctlOf_toNat, ctlByte_toNat]
  omega

theorem ctlByte_split (b1 b2 : Byte) : ctlByte (addrHi (joinAddr b1 b2)) (ctlOf b1) = b1 := by
  apply BitVec.eq_of_toNat_eq
  have := b2.isLt
  rw [ctlByte_toNat, addrHi_toNat, ctlOf_toNat, joinAddr_toNat]
  omega

theorem addrLo_join (b1 b2 : Byte) : addrLo (joinAddr b1 b2) = b2 := by
  apply BitVec.eq_of_toNat_eq
  have := b2.isLt
  rw [addrLo_toNat, joinAddr_toNat]
  omega

/-! ## Checksum -/

@[simp] theorem byteSum_nil : byteSum [] = 0 := rfl

@[simp] theorem byteSum_cons (b : Byte) (bs : List Byte) : byteSum (b :: bs) = b + byteSum bs := rfl

theorem byteSum_append (as bs : List Byte) : byteSum (as ++ bs) = byteSum as + byteSum bs := by
  induction as with
  | nil => simp
  | cons a as ih => simp [ih, BitVec.add_assoc]

/-- The byte sum is the sum of the naturals modulo 256 (R57, R58). -/
theorem byteSum_toNat (bs : List Byte) : (byteSum bs).toNat = (bs.map BitVec.toNat).sum % 256 := by
  induction bs with
  | nil => rfl
  | cons b bs ih => simp [BitVec.toNat_add, ih]

theorem byteSum_perm {as bs : List Byte} (h : as.Perm bs) : byteSum as = byteSum bs :=
  BitVec.eq_of_toNat_eq (by rw [byteSum_toNat, byteSum_toNat, (h.map _).sum_eq])

/-- The checksum is `0x32` less the byte sum (R57). -/
theorem cksum_eq (bs : List Byte) : cksum bs = 0x32 - byteSum bs := by
  unfold cksum Config.ckConst
  generalize byteSum bs = x
  revert x; decide

/-- R57's form in the naturals. -/
theorem cksum_toNat (bs : List Byte) : (cksum bs).toNat = (0x132 - (bs.map BitVec.toNat).sum % 256) % 256 := by
  rw [cksum_eq, BitVec.toNat_sub, byteSum_toNat]
  simp
  omega

/-- A byte is the checksum exactly when the sum of all is `0x32` (R62, R67). -/
theorem eq_cksum_iff (bs : List Byte) (c : Byte) : c = cksum bs ↔ byteSum (bs ++ [c]) = 0x32 := by
  rw [cksum_eq, byteSum_append, byteSum_cons, byteSum_nil]
  generalize byteSum bs = x
  constructor
  · rintro rfl
    simp
  · intro h
    rw [← h]
    simp

/-- A byte sum of `0x32`, in the naturals. -/
theorem byteSum_eq_iff (bs : List Byte) : byteSum bs = 0x32 ↔ (bs.map BitVec.toNat).sum % 256 = 0x32 := by
  rw [← byteSum_toNat]
  constructor
  · intro h; rw [h]; rfl
  · intro h; exact BitVec.eq_of_toNat_eq h

theorem cksum_inj (as bs : List Byte) : cksum as = cksum bs ↔ byteSum as = byteSum bs := by
  rw [cksum_eq, cksum_eq]
  constructor
  · intro h
    have := congrArg (fun z => 0x32 - z) h
    simpa using this
  · intro h; rw [h]

/-! ## Packets -/

@[simp] theorem pktBody_length (h : Byte) (c : BitVec 4) (a : WireAddr) (p : Word) : (pktBody h c a p).length = 7 := rfl

@[simp] theorem pkt_length (c : BitVec 4) (a : Addr) (p : Word) : (pkt c a p).length = 8 := rfl

@[simp] theorem packetBytes_length (p : Packet) : (packetBytes p).length = 8 := rfl

@[simp] theorem readResponseBytes_length (e : Packet) (vs : List Word) (k : Byte) :
    (readResponseBytes e vs k).length = 9 + 4 * vs.length := by
  simp [readResponseBytes]; omega

/-- A Packet, byte by byte (R59). -/
theorem pkt_toNat (c : BitVec 4) (a : Addr) (p : Word) :
    ((pkt c a p).take 7).map BitVec.toNat =
      [0x7D, 16 * (a.toNat / 256 % 16) + c.toNat, a.toNat % 256, p.toNat % 256, p.toNat / 256 % 256,
        p.toNat / 65536 % 256, p.toNat / 16777216 % 256] := by
  have h := le32_toNat p
  have ha := wireAddr_toNat a
  simp only [le32, List.map_cons, List.map_nil, List.cons.injEq, and_true] at h
  obtain ⟨h0, h1, h2, h3⟩ := h
  simp only [pkt, pktBody, le32, List.cons_append, List.take_succ_cons, List.take_zero, List.map_cons, List.map_nil,
    ctlByte_toNat, addrHi_toNat, addrLo_toNat, ha, h0, h1, h2, h3, List.cons.injEq, and_true, Config.header]
  refine ⟨rfl, ?_, ?_⟩ <;> omega

/-- The last byte of a Packet is the checksum of the others (R59, R62). -/
theorem pkt_checksum (c : BitVec 4) (a : Addr) (p : Word) : byteSum (pkt c a p) = 0x32 :=
  (eq_cksum_iff _ _).mp rfl

/-- `PKT_OK` is a sum of `0x32` (R67). -/
theorem pktOk_iff (f : List Byte) (h : f.length = 8) : pktOk f = true ↔ byteSum f = 0x32 := by
  match f, h with
  | [b0, b1, b2, b3, b4, b5, b6, b7], _ =>
    simpa [pktOk] using eq_cksum_iff [b0, b1, b2, b3, b4, b5, b6] b7

/-- The fields of a frame in `PKT` layout are read back. -/
theorem decodePacket_packetBytes (p : Packet) : decodePacket (packetBytes p) = .ok p := by
  simp [packetBytes, pktBody, le32, decodePacket]

/-- What `decodePacket` reads is what stood there. -/
theorem packetBytes_of_decodePacket (bs : List Byte) (p : Packet) (h : decodePacket bs = .ok p) :
    packetBytes p = bs := by
  match bs, h with
  | [b0, b1, b2, b3, b4, b5, b6, b7], h =>
    simp only [decodePacket, Except.ok.injEq] at h
    subst h
    simp [packetBytes, pktBody, ctlByte_split, addrLo_join, le32_unle32]

/-- A Packet, byte by byte, checksum included (R57, R59). -/
theorem pkt_map_toNat (c : BitVec 4) (a : Addr) (p : Word) : (pkt c a p).map BitVec.toNat =
    let b := [0x7D, 16 * (a.toNat / 256 % 16) + c.toNat, a.toNat % 256, p.toNat % 256, p.toNat / 256 % 256,
        p.toNat / 65536 % 256, p.toNat / 16777216 % 256]
    b ++ [(0x132 - b.sum % 256) % 256] := by
  have h7 : ((pktBody Config.header c (wireAddr a) p).map BitVec.toNat) = _ := pkt_toNat c a p
  rw [pkt]
  simp only [List.map_append, h7, List.map_cons, List.map_nil, cksum_toNat]

/-- The bytes of a frame as received (R43). -/
theorem packetBytes_map_toNat (p : Packet) : (packetBytes p).map BitVec.toNat =
    [p.hdr.toNat, 16 * (p.addr.toNat / 256) + p.ctl.toNat, p.addr.toNat % 256,
      p.payload.toNat % 256, p.payload.toNat / 256 % 256, p.payload.toNat / 65536 % 256, p.payload.toNat / 16777216,
      p.ck.toNat] := by
  have h := le32_toNat p.payload
  have hl := p.payload.isLt
  simp only [le32, List.map_cons, List.map_nil, List.cons.injEq, and_true] at h
  obtain ⟨h0, h1, h2, h3⟩ := h
  have h4 : p.payload.toNat / 16777216 % 256 = p.payload.toNat / 16777216 := by omega
  simp only [packetBytes, pktBody, le32, List.cons_append, List.nil_append, List.map_cons, List.map_nil, ctlByte_toNat,
    addrHi_toNat, addrLo_toNat, h0, h1, h2, h3, h4]

/-- Behind the echo stand the values and the checksum byte (R48). -/
theorem readResponseBytes_drop (p : Packet) (vs : List Word) (ck : Byte) : (readResponseBytes p vs ck).drop 8 = bytesOf vs ++ [ck] := by
  simp [readResponseBytes, List.drop_append]

/-- Value `j` of a read response is its four bytes (R48, R31). -/
theorem readResponseBytes_value (p : Packet) (vs : List Word) (ck : Byte) (j : Nat) (hj : j < vs.length) :
    (vs.getD j 0).toNat = ((readResponseBytes p vs ck).getD (8 + 4 * j) 0).toNat +
      256 * ((readResponseBytes p vs ck).getD (9 + 4 * j) 0).toNat +
      65536 * ((readResponseBytes p vs ck).getD (10 + 4 * j) 0).toNat +
      16777216 * ((readResponseBytes p vs ck).getD (11 + 4 * j) 0).toNat := by
  have hg : ∀ k, k < 4 → (bytesOf vs)[4 * j + k]? = some ((readResponseBytes p vs ck).getD (8 + k + 4 * j) 0) := by
    intro k hk
    have hl : 4 * j + k < (bytesOf vs).length := by rw [bytesOf_length]; omega
    have h2 : (bytesOf vs)[4 * j + k]? = (readResponseBytes p vs ck)[8 + k + 4 * j]? := by
      have h3 := congrArg (fun l => l[4 * j + k]?) (readResponseBytes_drop p vs ck)
      simp only [List.getElem?_drop] at h3
      rw [show 8 + k + 4 * j = 8 + (4 * j + k) by omega, h3, List.getElem?_append_left hl]
    rw [List.getD_eq_getElem?_getD, ← h2, List.getElem?_eq_getElem hl]
    rfl
  have := wordsOf_getElem? j _ _ _ _ _ (hg 0 (by omega)) (hg 1 (by omega)) (hg 2 (by omega)) (hg 3 (by omega))
  rw [wordsOf_bytesOf] at this
  rw [List.getD_eq_getElem?_getD, this, Option.getD_some, unle32_toNat]

/-- The byte sum of a run of words (R57, R68). -/
theorem bytesOf_map_toNat_sum (vs : List Word) : ((bytesOf vs).map BitVec.toNat).sum =
    (vs.map (fun v => v.toNat % 256 + v.toNat / 256 % 256 + v.toNat / 65536 % 256 + v.toNat / 16777216)).sum := by
  induction vs with
  | nil => rfl
  | cons v vs ih =>
    have := v.isLt
    rw [bytesOf_cons, List.map_append, List.sum_append, ih, le32_toNat]
    simp only [List.sum_cons, List.sum_nil, List.map_cons]
    omega

/-! ## Lengths -/

@[simp] theorem expectedLen_wr (c : Word) : expectedLen .wr c = 8 := rfl

@[simp] theorem expectedLen_rd (c : Word) : expectedLen .rd c = 9 + 4 * max c.toNat 1 := by
  simp only [expectedLen, Config.valOffset, nEff]; omega

end Sys2Proof.Machine
end

