-- ==== Sys2Proof/Laws/Decode.lean ====
section
/-! SUPPORT. What a record that decodes looked like: the inversions of the decoder, part by part. -/

namespace Sys2Proof.Machine

/-- A byte is the one its number names. -/
theorem byte_eq_of_toNat {op : Byte} {n : Nat} (h : op.toNat = n) : op = BitVec.ofNat 8 n :=
  BitVec.eq_of_toNat_eq (by have := op.isLt; simp; omega)

/-- A destination is decoded from its own handle. -/
@[simp] theorem decodeDest_handle (d : Dest) : decodeDest d.handle = .ok d := by
  simp [decodeDest, d.valid]

/-- A handle that decodes is the handle of its destination. -/
theorem decodeDest_inv {h : List Byte} {d : Dest} (hd : decodeDest h = .ok d) : d.handle = h := by
  unfold decodeDest at hd
  split at hd
  · cases hd; rfl
  · cases hd

/-- Sixteen and thirty-two bits of operands, and nothing else. -/
theorem decodeAddrWord_inv {op : Nat} {f : Addr → Word → Instr} {bs : List Byte} {i : Instr}
    (h : decodeAddrWord op f bs = .ok i) : ∃ a w, i = f a w ∧ bs = le16 a ++ le32 w := by
  match bs, h with
  | [a0, a1, w0, w1, w2, w3], h =>
    simp only [decodeAddrWord, Except.ok.injEq] at h
    exact ⟨_, _, h.symm, by simp [le16_unle16, le32_unle32]⟩

/-- No operands. -/
theorem decodeNone_inv {op : Nat} {j : Instr} {bs : List Byte} {i : Instr}
    (h : decodeNone op j bs = .ok i) : i = j ∧ bs = [] := by
  cases bs with
  | nil => simp [decodeNone] at h; exact ⟨h.symm, rfl⟩
  | cons => cases h

/-- The byte for RD or WR. -/
theorem decodeKind_inv {b : Byte} {k : Kind} (h : decodeKind b = .ok k) : b = kindByte k := by
  unfold decodeKind at h
  split at h
  · cases h; exact byte_eq_of_toNat (by assumption)
  · cases h; exact byte_eq_of_toNat (by assumption)
  · cases h

end Sys2Proof.Machine
end

