-- ==== Sys2Proof/Laws/Memory.lean ====
section
/-! SUPPORT. The laws of the buffer: read after write, frames, and that every operation keeps the canonical form. -/

namespace Sys2Proof.Machine

/-- Read after write, the same offset and any other. -/
theorem read_write (m : Memory) (a b : Nat) (v : Byte) :
    (m.write a v).read b = if a = b then some v else m.read b := by
  induction m with
  | nil => simp [Memory.write, Memory.read]
  | cons c m ih =>
    simp only [Memory.write]
    split_ifs with h1 h2 h3 <;> simp only [Memory.read, ih] <;> split_ifs <;> first | rfl | omega

/-- What a run of writes leaves at each offset. -/
theorem read_writeRun (bs : List Byte) : ∀ (m : Memory) (a b : Nat),
    (m.writeRun a bs).read b = if a ≤ b ∧ b < a + bs.length then bs[b - a]? else m.read b := by
  induction bs with
  | nil => intro m a b; simp [Memory.writeRun]
  | cons v bs ih =>
    intro m a b
    simp only [Memory.writeRun, ih, read_write, List.length_cons]
    rcases Nat.lt_trichotomy a b with h | h | h
    · have e : b - a = (b - (a + 1)) + 1 := by omega
      rw [e, List.getElem?_cons_succ]
      split_ifs <;> first | rfl | omega
    · subst h
      simp
    · split_ifs <;> first | rfl | omega

theorem mem_write {m : Memory} {a : Nat} {v : Byte} {c : Host.Cell} (h : c ∈ m.write a v) : c = (a, v) ∨ c ∈ m := by
  induction m with
  | nil => simpa [Memory.write] using h
  | cons d m ih =>
    simp only [Memory.write] at h
    split_ifs at h <;> simp only [List.mem_cons] at h ⊢
    · tauto
    · tauto
    · rcases h with h | h
      · tauto
      · rcases ih h with h | h <;> tauto

/-- Writing a byte keeps the canonical form. -/
theorem write_wf {m : Memory} (h : m.wf) (a : Nat) (v : Byte) : (m.write a v).wf := by
  induction m with
  | nil => simp [Memory.write, Memory.wf]
  | cons d m ih =>
    obtain ⟨hd, hm⟩ := List.pairwise_cons.mp h
    simp only [Memory.write]
    split_ifs with h1 h2
    · refine List.pairwise_cons.mpr ⟨fun c hc => ?_, h⟩
      rcases List.mem_cons.mp hc with rfl | hc
      · exact h1
      · exact Nat.lt_trans h1 (hd c hc)
    · exact List.pairwise_cons.mpr ⟨fun c hc => h2 ▸ hd c hc, hm⟩
    · refine List.pairwise_cons.mpr ⟨fun c hc => ?_, ih hm⟩
      rcases mem_write hc with rfl | hc
      · simp only; omega
      · exact hd c hc

/-- Writing a run keeps the canonical form. -/
theorem writeRun_wf (bs : List Byte) : ∀ {m : Memory}, m.wf → ∀ a, (m.writeRun a bs).wf := by
  induction bs with
  | nil => intro m h a; exact h
  | cons v bs ih => intro m h a; exact ih (write_wf h a v) (a + 1)

/-- `MemWrite` keeps the canonical form. -/
theorem memWrite_wf {m : Memory} (h : m.wf) (a n v : Nat) : (m.memWrite a n v).wf := writeRun_wf _ h a

/-- A run of writes below a bound keeps the bound. -/
theorem writeRun_bounded (bs : List Byte) : ∀ {m : Memory} {cap : Nat}, (∀ c ∈ m, c.1 < cap) →
    ∀ a, a + bs.length ≤ cap → ∀ c ∈ m.writeRun a bs, c.1 < cap := by
  induction bs with
  | nil => intro m cap h a _; exact h
  | cons v bs ih =>
    intro m cap h a ha
    simp only [List.length_cons] at ha
    refine ih (fun c hc => ?_) (a + 1) (by omega)
    rcases mem_write hc with rfl | hc
    · simp only; omega
    · exact h c hc

theorem writeRun_append (as bs : List Byte) : ∀ (m : Memory) (a : Nat),
    m.writeRun a (as ++ bs) = (m.writeRun a as).writeRun (a + as.length) bs := by
  induction as with
  | nil => intro m a; rfl
  | cons v as ih =>
    intro m a
    simp only [List.cons_append, Memory.writeRun, ih, List.length_cons]
    congr 1; omega

@[simp] theorem bytesLE_length (n : Nat) : ∀ v, (bytesLE n v).length = n := by
  induction n with
  | zero => intro v; rfl
  | succ n ih => intro v; simp [bytesLE, ih]

theorem natLE_bytesLE (n : Nat) : ∀ v, natLE (bytesLE n v) = v % 256 ^ n := by
  induction n with
  | zero => intro v; simp [bytesLE, natLE, Nat.mod_one]
  | succ n ih =>
    intro v
    simp only [bytesLE, natLE, ih, BitVec.toNat_ofNat]
    rw [show 256 ^ (n + 1) = 256 * 256 ^ n by ring, Nat.mod_mul]

/-- `MemRead` is the little-endian number of the bytes there (R7). -/
theorem memRead_eq (m : Memory) : ∀ (bs : List Byte) (a : Nat), (∀ i, i < bs.length → m.read (a + i) = bs[i]?) →
    m.memRead a bs.length = some (natLE bs) := by
  intro bs
  induction bs with
  | nil => intro a _; rfl
  | cons b bs ih =>
    intro a h
    have h0 := h 0 (by simp)
    have ht := ih (a + 1) (fun i hi => by
      have := h (i + 1) (by simp; omega)
      rw [show a + 1 + i = a + (i + 1) by omega]
      simpa using this)
    simp only [Nat.add_zero, List.getElem?_cons_zero] at h0
    simp [Memory.memRead, h0, ht, natLE]

/-- `MemRead` after `MemWrite` (R7). -/
theorem memRead_memWrite (m : Memory) (a n v : Nat) : (m.memWrite a n v).memRead a n = some (v % 256 ^ n) := by
  have h := memRead_eq (m.memWrite a n v) (bytesLE n v) a (fun i hi => by
    rw [Memory.memWrite, read_writeRun, if_pos ⟨by omega, by omega⟩, show a + i - a = i by omega])
  rwa [bytesLE_length, natLE_bytesLE] at h

end Sys2Proof.Machine
end

