-- ==== Sys2Proof/Laws/State.lean ====
section
/-! SUPPORT. What each update of the state leaves in each field. -/

namespace Sys2Proof.Machine

@[simp] theorem disarm_linkOpen (s : State) : (disarm s).linkOpen = s.linkOpen := rfl
@[simp] theorem disarm_busy (s : State) : (disarm s).busy = false := rfl
@[simp] theorem disarm_rxCount (s : State) : (disarm s).rxCount = 0 := rfl
@[simp] theorem disarm_expLen (s : State) : (disarm s).expLen = s.expLen := rfl
@[simp] theorem disarm_pendValid (s : State) : (disarm s).pendValid = false := rfl
@[simp] theorem disarm_pendDest (s : State) : (disarm s).pendDest = s.pendDest := rfl
@[simp] theorem disarm_pendCount (s : State) : (disarm s).pendCount = s.pendCount := rfl
@[simp] theorem disarm_buf (s : State) : (disarm s).buf = s.buf := rfl
@[simp] theorem disarm_bufCap (s : State) : (disarm s).bufCap = s.bufCap := rfl
@[simp] theorem disarm_input (s : State) : (disarm s).input = s.input := rfl
@[simp] theorem disarm_outputs (s : State) : (disarm s).outputs = s.outputs := rfl
@[simp] theorem disarm_results (s : State) : (disarm s).results = s.results := rfl

@[simp] theorem armRead_linkOpen (c : Word) (d : Dest) (s : State) : (armRead c d s).linkOpen = s.linkOpen := rfl
@[simp] theorem armRead_busy (c : Word) (d : Dest) (s : State) : (armRead c d s).busy = true := rfl
@[simp] theorem armRead_rxCount (c : Word) (d : Dest) (s : State) : (armRead c d s).rxCount = s.rxCount := rfl
@[simp] theorem armRead_expLen (c : Word) (d : Dest) (s : State) : (armRead c d s).expLen = expectedLen .rd c := rfl
@[simp] theorem armRead_pendValid (c : Word) (d : Dest) (s : State) : (armRead c d s).pendValid = true := rfl
@[simp] theorem armRead_pendDest (c : Word) (d : Dest) (s : State) : (armRead c d s).pendDest = d := rfl
@[simp] theorem armRead_pendCount (c : Word) (d : Dest) (s : State) : (armRead c d s).pendCount = c := rfl
@[simp] theorem armRead_buf (c : Word) (d : Dest) (s : State) : (armRead c d s).buf = s.buf := rfl
@[simp] theorem armRead_bufCap (c : Word) (d : Dest) (s : State) : (armRead c d s).bufCap = s.bufCap := rfl
@[simp] theorem armRead_input (c : Word) (d : Dest) (s : State) : (armRead c d s).input = s.input := rfl
@[simp] theorem armRead_outputs (c : Word) (d : Dest) (s : State) : (armRead c d s).outputs = s.outputs := rfl
@[simp] theorem armRead_results (c : Word) (d : Dest) (s : State) : (armRead c d s).results = s.results := rfl

@[simp] theorem armWrite_linkOpen (s : State) : (armWrite s).linkOpen = s.linkOpen := rfl
@[simp] theorem armWrite_busy (s : State) : (armWrite s).busy = true := rfl
@[simp] theorem armWrite_rxCount (s : State) : (armWrite s).rxCount = s.rxCount := rfl
@[simp] theorem armWrite_expLen (s : State) : (armWrite s).expLen = expectedLen .wr 0 := rfl
@[simp] theorem armWrite_pendValid (s : State) : (armWrite s).pendValid = false := rfl
@[simp] theorem armWrite_pendDest (s : State) : (armWrite s).pendDest = s.pendDest := rfl
@[simp] theorem armWrite_pendCount (s : State) : (armWrite s).pendCount = s.pendCount := rfl
@[simp] theorem armWrite_buf (s : State) : (armWrite s).buf = s.buf := rfl
@[simp] theorem armWrite_bufCap (s : State) : (armWrite s).bufCap = s.bufCap := rfl
@[simp] theorem armWrite_input (s : State) : (armWrite s).input = s.input := rfl
@[simp] theorem armWrite_outputs (s : State) : (armWrite s).outputs = s.outputs := rfl
@[simp] theorem armWrite_results (s : State) : (armWrite s).results = s.results := rfl

@[simp] theorem setLink_linkOpen (b : Bool) (s : State) : (setLink b s).linkOpen = b := rfl
@[simp] theorem setLink_busy (b : Bool) (s : State) : (setLink b s).busy = s.busy := rfl
@[simp] theorem setLink_rxCount (b : Bool) (s : State) : (setLink b s).rxCount = s.rxCount := rfl
@[simp] theorem setLink_expLen (b : Bool) (s : State) : (setLink b s).expLen = s.expLen := rfl
@[simp] theorem setLink_pendValid (b : Bool) (s : State) : (setLink b s).pendValid = s.pendValid := rfl
@[simp] theorem setLink_pendDest (b : Bool) (s : State) : (setLink b s).pendDest = s.pendDest := rfl
@[simp] theorem setLink_pendCount (b : Bool) (s : State) : (setLink b s).pendCount = s.pendCount := rfl
@[simp] theorem setLink_buf (b : Bool) (s : State) : (setLink b s).buf = s.buf := rfl
@[simp] theorem setLink_bufCap (b : Bool) (s : State) : (setLink b s).bufCap = s.bufCap := rfl
@[simp] theorem setLink_input (b : Bool) (s : State) : (setLink b s).input = s.input := rfl
@[simp] theorem setLink_outputs (b : Bool) (s : State) : (setLink b s).outputs = s.outputs := rfl
@[simp] theorem setLink_results (b : Bool) (s : State) : (setLink b s).results = s.results := rfl

@[simp] theorem emit_linkOpen (os : List Output) (s : State) : (emit os s).linkOpen = s.linkOpen := rfl
@[simp] theorem emit_busy (os : List Output) (s : State) : (emit os s).busy = s.busy := rfl
@[simp] theorem emit_rxCount (os : List Output) (s : State) : (emit os s).rxCount = s.rxCount := rfl
@[simp] theorem emit_expLen (os : List Output) (s : State) : (emit os s).expLen = s.expLen := rfl
@[simp] theorem emit_pendValid (os : List Output) (s : State) : (emit os s).pendValid = s.pendValid := rfl
@[simp] theorem emit_pendDest (os : List Output) (s : State) : (emit os s).pendDest = s.pendDest := rfl
@[simp] theorem emit_pendCount (os : List Output) (s : State) : (emit os s).pendCount = s.pendCount := rfl
@[simp] theorem emit_buf (os : List Output) (s : State) : (emit os s).buf = s.buf := rfl
@[simp] theorem emit_bufCap (os : List Output) (s : State) : (emit os s).bufCap = s.bufCap := rfl
@[simp] theorem emit_input (os : List Output) (s : State) : (emit os s).input = s.input := rfl
@[simp] theorem emit_outputs (os : List Output) (s : State) : (emit os s).outputs = s.outputs ++ os := rfl
@[simp] theorem emit_results (os : List Output) (s : State) : (emit os s).results = s.results := rfl

@[simp] theorem giveResult_linkOpen (r : FnResult) (s : State) : (giveResult r s).linkOpen = s.linkOpen := rfl
@[simp] theorem giveResult_busy (r : FnResult) (s : State) : (giveResult r s).busy = s.busy := rfl
@[simp] theorem giveResult_rxCount (r : FnResult) (s : State) : (giveResult r s).rxCount = s.rxCount := rfl
@[simp] theorem giveResult_expLen (r : FnResult) (s : State) : (giveResult r s).expLen = s.expLen := rfl
@[simp] theorem giveResult_pendValid (r : FnResult) (s : State) : (giveResult r s).pendValid = s.pendValid := rfl
@[simp] theorem giveResult_pendDest (r : FnResult) (s : State) : (giveResult r s).pendDest = s.pendDest := rfl
@[simp] theorem giveResult_pendCount (r : FnResult) (s : State) : (giveResult r s).pendCount = s.pendCount := rfl
@[simp] theorem giveResult_buf (r : FnResult) (s : State) : (giveResult r s).buf = s.buf := rfl
@[simp] theorem giveResult_bufCap (r : FnResult) (s : State) : (giveResult r s).bufCap = s.bufCap := rfl
@[simp] theorem giveResult_input (r : FnResult) (s : State) : (giveResult r s).input = s.input := rfl
@[simp] theorem giveResult_outputs (r : FnResult) (s : State) : (giveResult r s).outputs = s.outputs := rfl
@[simp] theorem giveResult_results (r : FnResult) (s : State) : (giveResult r s).results = s.results ++ [r] := rfl

@[simp] theorem raise_linkOpen (f : Failure) (s : State) : (raise f s).linkOpen = s.linkOpen := rfl
@[simp] theorem raise_busy (f : Failure) (s : State) : (raise f s).busy = s.busy := rfl
@[simp] theorem raise_rxCount (f : Failure) (s : State) : (raise f s).rxCount = s.rxCount := rfl
@[simp] theorem raise_expLen (f : Failure) (s : State) : (raise f s).expLen = s.expLen := rfl
@[simp] theorem raise_pendValid (f : Failure) (s : State) : (raise f s).pendValid = s.pendValid := rfl
@[simp] theorem raise_pendDest (f : Failure) (s : State) : (raise f s).pendDest = s.pendDest := rfl
@[simp] theorem raise_pendCount (f : Failure) (s : State) : (raise f s).pendCount = s.pendCount := rfl
@[simp] theorem raise_buf (f : Failure) (s : State) : (raise f s).buf = s.buf := rfl
@[simp] theorem raise_bufCap (f : Failure) (s : State) : (raise f s).bufCap = s.bufCap := rfl
@[simp] theorem raise_input (f : Failure) (s : State) : (raise f s).input = s.input := rfl
@[simp] theorem raise_outputs (f : Failure) (s : State) : (raise f s).outputs = s.outputs ++ [.reject f] := rfl
@[simp] theorem raise_results (f : Failure) (s : State) : (raise f s).results = s.results := rfl

@[simp] theorem copyChunk_linkOpen (ch : List Byte) (s : State) : (copyChunk ch s).linkOpen = s.linkOpen := rfl
@[simp] theorem copyChunk_busy (ch : List Byte) (s : State) : (copyChunk ch s).busy = s.busy := rfl
@[simp] theorem copyChunk_rxCount (ch : List Byte) (s : State) : (copyChunk ch s).rxCount = s.rxCount + storedCount ch s := rfl
@[simp] theorem copyChunk_expLen (ch : List Byte) (s : State) : (copyChunk ch s).expLen = s.expLen := rfl
@[simp] theorem copyChunk_pendValid (ch : List Byte) (s : State) : (copyChunk ch s).pendValid = s.pendValid := rfl
@[simp] theorem copyChunk_pendDest (ch : List Byte) (s : State) : (copyChunk ch s).pendDest = s.pendDest := rfl
@[simp] theorem copyChunk_pendCount (ch : List Byte) (s : State) : (copyChunk ch s).pendCount = s.pendCount := rfl
@[simp] theorem copyChunk_buf (ch : List Byte) (s : State) : (copyChunk ch s).buf = s.buf.writeRun s.rxCount (ch.take (storedCount ch s)) := rfl
@[simp] theorem copyChunk_bufCap (ch : List Byte) (s : State) : (copyChunk ch s).bufCap = s.bufCap := rfl
@[simp] theorem copyChunk_input (ch : List Byte) (s : State) : (copyChunk ch s).input = s.input := rfl
@[simp] theorem copyChunk_outputs (ch : List Byte) (s : State) : (copyChunk ch s).outputs = s.outputs := rfl
@[simp] theorem copyChunk_results (ch : List Byte) (s : State) : (copyChunk ch s).results = s.results := rfl

/-- Records presented are no part of what an update reads: it commutes with changing them. -/
theorem copyChunk_with_input (ch : List Byte) (s : State) (r : List Record) :
    copyChunk ch { s with input := r } = { copyChunk ch s with input := r } := rfl

end Sys2Proof.Machine
end

