-- ==== Sys2Proof/Laws/Ops.lean ====
section
/-! SUPPORT. One lemma for each shared operation that says all it can do: reading a run of the buffer, the copy phase,
`DEC_RESP`, the completion phase, `RX` as a whole, `ISSUE`. -/

namespace Sys2Proof.Machine

/-! ## Reading the buffer -/

/-- A run of written bytes inside the buffer is read. -/
theorem readRun_ok (s : State) (bs : List Byte) : ∀ i, i + bs.length ≤ s.bufCap →
    (∀ j, j < bs.length → s.buf.read (i + j) = bs[j]?) → readRun s i bs.length = .ok bs := by
  induction bs with
  | nil => intro i _ _; rfl
  | cons b bs ih =>
    intro i hcap h
    have h0 := h 0 (by simp)
    simp only [Nat.add_zero, List.getElem?_cons_zero] at h0
    simp only [List.length_cons] at hcap
    have hb : readByte s i = .ok b := by
      simp [readByte, h0, show i < s.bufCap by omega]
    have ht := ih (i + 1) (by omega) (fun j hj => by
      have := h (j + 1) (by simp; omega)
      rw [show i + 1 + j = i + (j + 1) by omega]
      simpa using this)
    simp [readRun, hb, ht]

/-- What a run that was read says of the bytes. -/
theorem readRun_length (s : State) : ∀ n i bs, readRun s i n = .ok bs → bs.length = n := by
  intro n
  induction n with
  | zero => intro i bs h; simp [readRun] at h; simp [← h]
  | succ n ih =>
    intro i bs h
    simp only [readRun] at h
    split at h
    · cases h
    · split at h
      · cases h
      · rename_i bs' h'
        cases h
        simp [ih _ _ h']

/-- Two states whose buffers agree on a run read the same. -/
theorem readRun_congr {s t : State} (hc : s.bufCap = t.bufCap) : ∀ n i,
    (∀ j, i ≤ j → j < i + n → s.buf.read j = t.buf.read j) → readRun s i n = readRun t i n := by
  intro n
  induction n with
  | zero => intro i _; rfl
  | succ n ih =>
    intro i h
    have hb : readByte s i = readByte t i := by
      simp only [readByte, hc, h i (Nat.le_refl i) (by omega)]
    rw [readRun, readRun, hb, ih (i + 1) (fun j h1 h2 => h j (by omega) (by omega))]

/-- Bytes that are all written form a list. -/
theorem exists_bytes (m : Memory) : ∀ n, (∀ i, i < n → (m.read i).isSome = true) →
    ∃ bs : List Byte, bs.length = n ∧ ∀ i, i < n → m.read i = bs[i]? := by
  intro n
  induction n with
  | zero => intro _; exact ⟨[], rfl, fun i hi => by omega⟩
  | succ n ih =>
    intro h
    obtain ⟨bs, hl, hb⟩ := ih (fun i hi => h i (by omega))
    obtain ⟨b, hn⟩ := Option.isSome_iff_exists.mp (h n (by omega))
    refine ⟨bs ++ [b], by simp [hl], fun i hi => ?_⟩
    rcases Nat.lt_or_ge i n with h1 | h1
    · rw [hb i h1, List.getElem?_append_left (by omega)]
    · have : i = n := by omega
      subst this
      rw [hn, List.getElem?_append_right (by omega)]
      simp [hl]

/-- A state whose received bytes are all written holds them. -/
theorem exists_holds {s : State} (h : s.Inv) : ∃ bs, s.Holds bs := exists_bytes s.buf s.rxCount h.written

/-! ## The copy phase -/

theorem storedCount_le (ch : List Byte) (s : State) : storedCount ch s ≤ ch.length := Nat.min_le_left _ _

/-- What each buffer offset holds after the copy phase (R79). -/
theorem copyChunk_read (ch : List Byte) (s : State) (a : Nat) : (copyChunk ch s).buf.read a =
    if s.rxCount ≤ a ∧ a < s.rxCount + storedCount ch s then ch[a - s.rxCount]? else s.buf.read a := by
  have hk := storedCount_le ch s
  rw [copyChunk_buf, read_writeRun, List.length_take, Nat.min_eq_left hk]
  split_ifs with h
  · rw [List.getElem?_take_of_lt (by omega)]
  · rfl

/-- The copy phase keeps the invariant's part about the buffer. -/
theorem copyChunk_count_le {s : State} (h : s.Inv) (ch : List Byte) :
    s.rxCount + storedCount ch s ≤ s.bufCap := by
  have := h.count_le
  simp only [storedCount]; omega

theorem copyChunk_inv {s : State} (h : s.Inv) (ch : List Byte) : (copyChunk ch s).Inv where
  cap_ge := h.cap_ge
  count_le := copyChunk_count_le h ch
  pend_busy := h.pend_busy
  busy_open := h.busy_open
  len_write := h.len_write
  len_read := h.len_read
  written := by
    intro i hi
    have hk := storedCount_le ch s
    simp only [copyChunk_rxCount] at hi
    rw [copyChunk_read]
    split_ifs with hc
    · rw [List.getElem?_eq_getElem (by omega)]; rfl
    · exact h.written i (by omega)
  canonical := writeRun_wf _ h.canonical _
  bounded := writeRun_bounded _ h.bounded _ (by
    have h1 := copyChunk_count_le h ch
    simp only [List.length_take]
    omega)

/-- The bytes held after the copy phase: those held before, then the stored part of the chunk. -/
theorem copyChunk_holds {s : State} {bs : List Byte} (h : s.Holds bs) (ch : List Byte) :
    (copyChunk ch s).Holds (bs ++ ch.take (storedCount ch s)) := by
  obtain ⟨hl, hb⟩ := h
  have hk := storedCount_le ch s
  refine ⟨by simp [hl]; omega, fun i hi => ?_⟩
  simp only [copyChunk_rxCount] at hi
  rw [copyChunk_read]
  split_ifs with hc
  · rw [List.getElem?_append_right (by omega), List.getElem?_take_of_lt (by omega), hl]
  · rw [hb i (by omega), List.getElem?_append_left (by omega)]

/-- An empty chunk stores nothing (R85). -/
theorem copyChunk_nil (s : State) : copyChunk [] s = s := by
  cases s
  simp [copyChunk, storedCount, Memory.writeRun]

/-- Copying in two parts is copying in one (R86). -/
theorem copyChunk_append (s : State) (c1 c2 : List Byte) : copyChunk c2 (copyChunk c1 s) = copyChunk (c1 ++ c2) s := by
  have hk : storedCount (c1 ++ c2) s = storedCount c1 s + storedCount c2 (copyChunk c1 s) := by
    simp only [storedCount, List.length_append, copyChunk_rxCount, copyChunk_bufCap]; omega
  have ht : (c1 ++ c2).take (storedCount (c1 ++ c2) s) =
      c1.take (storedCount c1 s) ++ c2.take (storedCount c2 (copyChunk c1 s)) := by
    rw [List.take_append, hk]
    by_cases hc : storedCount c1 s = c1.length
    · congr 1
      · rw [hc, List.take_of_length_le (by omega), List.take_of_length_le (by omega)]
      · congr 1; omega
    · have h1 : storedCount c1 s < c1.length := lt_of_le_of_ne (storedCount_le _ _) hc
      have h2 : storedCount c2 (copyChunk c1 s) = 0 := by
        simp only [storedCount, copyChunk_rxCount, copyChunk_bufCap] at *; omega
      rw [h2]
      congr 1
      rw [Nat.add_zero, show storedCount c1 s - c1.length = 0 by omega]
  have hl : (c1.take (storedCount c1 s)).length = storedCount c1 s := by simp [storedCount_le]
  cases s
  simp only [copyChunk] at *
  simp only [State.mk.injEq, true_and, and_true]
  refine ⟨?_, ?_⟩
  · rw [hk]; omega
  · rw [ht, writeRun_append, hl]

/-! ## DEC_RESP -/

/-- `DEC_RESP` is refused exactly off its domain (R70). -/
theorem decodeResponse_isSome (k : Kind) (c : Word) (b : List Byte) :
    (decodeResponse k c b).isSome = true ↔ b.length = expectedLen k c := by
  by_cases h : b.length = expectedLen k c
  · cases k <;> simp [decodeResponse, h]
  · simp [decodeResponse, h]

theorem decodeResponse_none (k : Kind) (c : Word) (b : List Byte) :
    decodeResponse k c b = none ↔ b.length ≠ expectedLen k c := by
  rw [← Option.isNone_iff_eq_none, ← Option.not_isSome, ne_eq, ← decodeResponse_isSome]
  simp

/-- `RDRESP_OK` is a sum of `0x32` over the values and the trailing byte (R68). -/
theorem rdRespOk_iff (b : List Byte) (n : Nat) (h : b.length = 9 + 4 * n) :
    rdRespOk b n = true ↔ byteSum (b.drop 8) = 0x32 := by
  obtain ⟨c, hc⟩ : ∃ c, b[8 + 4 * n]? = some c := ⟨_, List.getElem?_eq_getElem (by omega)⟩
  have hs : b.drop 8 = (b.take (8 + 4 * n)).drop 8 ++ [c] := by
    have h1 : b = b.take (8 + 4 * n) ++ [c] := by
      have h2 : b.drop (8 + 4 * n) = [c] := by
        obtain ⟨hlt, he⟩ := List.getElem?_eq_some_iff.mp hc
        rw [List.drop_eq_getElem_cons hlt, he, List.drop_eq_nil_of_le (by omega)]
      rw [← h2, List.take_append_drop]
    conv_lhs => rw [h1]
    rw [List.drop_append_of_le_length (by simp; omega)]
  rw [hs, ← eq_cksum_iff]
  simp [rdRespOk, Config.valOffset, Config.rdCkStart, hc]

/-- `DEC_RESP` for a write, on its domain (R70, R67). -/
theorem decodeResponse_wr (c : Word) (b : List Byte) (h : b.length = 8) : decodeResponse .wr c b =
    some (if (b.map BitVec.toNat).sum % 256 = 0x32 then .decoded (controlOf b) (addressOf b) []
      else .checksumMismatch) := by
  simp only [decodeResponse, expectedLen_wr, h, if_true]
  simp only [pktOk_iff b h, byteSum_eq_iff]

/-- `DEC_RESP` for a read, on its domain (R70, R68). -/
theorem decodeResponse_rd (c : Word) (b : List Byte) (n : Nat) (hn : n = max c.toNat 1) (h : b.length = 9 + 4 * n) :
    decodeResponse .rd c b =
      some (if ((b.drop 8).map BitVec.toNat).sum % 256 = 0x32 then
        .decoded (controlOf b) (addressOf b) (valuesOf b n) else .checksumMismatch) := by
  subst hn
  simp only [decodeResponse, expectedLen_rd, h, if_true, nEff]
  simp only [rdRespOk_iff b _ h, byteSum_eq_iff]

theorem controlOf_toNat (b : List Byte) : (controlOf b).toNat = (b.getD 1 0).toNat % 16 := ctlOf_toNat _

theorem addressOf_toNat (b : List Byte) :
    (addressOf b).toNat = 256 * ((b.getD 1 0).toNat / 16) + (b.getD 2 0).toNat := by
  have := (joinAddr (b.getD 1 0) (b.getD 2 0)).isLt
  simp only [addressOf, BitVec.toNat_setWidth, joinAddr_toNat] at *
  omega

theorem controlOf_read (b : List Byte) : controlOf b = Config.ctlRead ↔ (b.getD 1 0).toNat % 16 = 1 := by
  rw [← controlOf_toNat]
  exact ⟨fun h => by rw [h]; rfl, fun h => BitVec.eq_of_toNat_eq h⟩

/-- How many values a read response yields (R70, R52). -/
theorem valuesOf_length (b : List Byte) (n : Nat) (h : b.length = 9 + 4 * n) :
    (valuesOf b n).length = if controlOf b = Config.ctlRead then n else 0 := by
  unfold valuesOf
  split
  · exact wordsOf_length n _ (by simp [Config.valOffset]; omega)
  · rfl

/-- Value `j` is `UNLE32(B[8+4j .. 11+4j])` (R70, R31). -/
theorem valuesOf_getD (b : List Byte) (n : Nat) (h : b.length = 9 + 4 * n) (hc : controlOf b = Config.ctlRead)
    (j : Nat) (hj : j < n) : ((valuesOf b n).getD j 0).toNat = (b.getD (8 + 4 * j) 0).toNat +
      256 * (b.getD (9 + 4 * j) 0).toNat + 65536 * (b.getD (10 + 4 * j) 0).toNat +
      16777216 * (b.getD (11 + 4 * j) 0).toNat := by
  have hg : ∀ k, k < 4 → ((b.drop 8).take (4 * n))[4 * j + k]? = some (b.getD (8 + k + 4 * j) 0) := by
    intro k hk
    rw [List.getElem?_take_of_lt (by omega), List.getElem?_drop, List.getD_eq_getElem?_getD,
      show 8 + (4 * j + k) = 8 + k + 4 * j by omega, List.getElem?_eq_getElem (by omega)]
    rfl
  have := wordsOf_getElem? j _ _ _ _ _ (hg 0 (by omega)) (hg 1 (by omega)) (hg 2 (by omega)) (hg 3 (by omega))
  rw [List.getD_eq_getElem?_getD, valuesOf, if_pos hc, Config.valOffset, this, Option.getD_some, unle32_toNat]

/-! ## The completion phase and RX -/

/-- All the completion phase can do (R80): nothing, or a completion, or a stop in a state no run reaches. -/
theorem complete_cases (s : State) :
    (¬ (s.busy = true ∧ s.expLen ≤ s.rxCount) ∧ complete s = .next s) ∨
    (s.busy = true ∧ s.expLen ≤ s.rxCount ∧
      ((∃ f, complete s = .fault f) ∨ (∃ r, complete s = .refused r) ∨
        ∃ b r, readRun s 0 s.expLen = .ok b ∧ decodeResponse (kindInFlight s) (countInFlight s) b = some r ∧
          complete s = .next (emit (completionOutputs s r) (disarm s)))) := by
  by_cases h : s.busy = true ∧ s.expLen ≤ s.rxCount
  · refine .inr ⟨h.1, h.2, ?_⟩
    rw [complete, if_pos h]
    cases hr : readRun s 0 s.expLen with
    | error f => exact .inl ⟨f, rfl⟩
    | ok b =>
      cases hd : decodeResponse (kindInFlight s) (countInFlight s) b with
      | none => exact .inr (.inl ⟨_, by simp only [hd]; rfl⟩)
      | some r => exact .inr (.inr ⟨b, r, rfl, hd, by simp only [hd]⟩)
  · exact .inl ⟨h, by rw [complete, if_neg h]⟩

/-- The expected length in a reachable state (R21, invariants 4 and 5). -/
theorem expLen_eq {s : State} (h : s.Inv) (hb : s.busy = true) :
    s.expLen = expectedLen (kindInFlight s) (countInFlight s) := by
  cases hp : s.pendValid
  · simp [kindInFlight, countInFlight, hp, h.len_write hb hp]
  · simp [kindInFlight, countInFlight, hp, h.len_read hb hp]

/-- A completion in a reachable state (R41, R80): it reads the first `exp_len` of the bytes held, and goes on. -/
theorem complete_of_holds {s : State} {bs : List Byte} (h : s.Inv) (hh : s.Holds bs) (hb : s.busy = true)
    (hl : s.expLen ≤ s.rxCount) :
    ∃ r, decodeResponse (kindInFlight s) (countInFlight s) (bs.take s.expLen) = some r ∧
      complete s = .next (emit (completionOutputs s r) (disarm s)) := by
  obtain ⟨hbl, hbr⟩ := hh
  have hcap := h.count_le
  have hlen : (bs.take s.expLen).length = s.expLen := by simp; omega
  have hr : readRun s 0 s.expLen = .ok (bs.take s.expLen) := by
    have := readRun_ok s (bs.take s.expLen) 0 (by omega) (fun j hj => by
      rw [hlen] at hj
      rw [Nat.zero_add, hbr j (by omega), List.getElem?_take_of_lt hj])
    rwa [hlen] at this
  obtain ⟨r, hr'⟩ := Option.isSome_iff_exists.mp
    ((decodeResponse_isSome (kindInFlight s) (countInFlight s) (bs.take s.expLen)).mpr
      (by rw [hlen, expLen_eq h hb]))
  refine ⟨r, hr', ?_⟩
  rw [complete, if_pos ⟨hb, hl⟩, hr]
  simp only [hr']

/-- All `RX` can do in a reachable state (R79, R80): store, or store and complete. -/
theorem receive_cases {s : State} (h : s.Inv) (ch : List Byte) {bs : List Byte} (hh : s.Holds bs) :
    (¬ (s.busy = true ∧ s.expLen ≤ s.rxCount + storedCount ch s) ∧ receive ch s = .next (copyChunk ch s)) ∨
    (s.busy = true ∧ s.expLen ≤ s.rxCount + storedCount ch s ∧
      ∃ r, decodeResponse (kindInFlight s) (countInFlight s) ((bs ++ ch).take s.expLen) = some r ∧
        receive ch s = .next (emit (completionOutputs s r) (disarm (copyChunk ch s)))) := by
  by_cases hc : s.busy = true ∧ s.expLen ≤ s.rxCount + storedCount ch s
  · refine .inr ⟨hc.1, hc.2, ?_⟩
    obtain ⟨r, hr, he⟩ := complete_of_holds (copyChunk_inv h ch) (copyChunk_holds hh ch) hc.1 hc.2
    refine ⟨r, ?_, he⟩
    have hk := storedCount_le ch s
    have : ((bs ++ ch).take s.expLen) = (bs ++ ch.take (storedCount ch s)).take s.expLen := by
      rw [List.take_append, List.take_append, List.take_take]
      congr 2
      have := hh.1
      omega
    rw [this]
    exact hr
  · refine .inl ⟨hc, ?_⟩
    rw [receive, complete, if_neg]
    exact hc

/-- A next state of `RX`, in any state at all. -/
theorem receive_next {s t : State} {ch : List Byte} (h : receive ch s = .next t) :
    (¬ (s.busy = true ∧ s.expLen ≤ s.rxCount + storedCount ch s) ∧ t = copyChunk ch s) ∨
    (s.busy = true ∧ s.expLen ≤ s.rxCount + storedCount ch s ∧
      ∃ r, t = emit (completionOutputs s r) (disarm (copyChunk ch s))) := by
  rcases complete_cases (copyChunk ch s) with ⟨hn, he⟩ | ⟨hb, hl, ⟨f, he⟩ | ⟨r, he⟩ | ⟨b, r, -, -, he⟩⟩ <;>
    rw [receive, he] at h
  · exact .inl ⟨hn, by injection h with h; exact h.symm⟩
  · cases h
  · cases h
  · exact .inr ⟨hb, hl, r, by injection h with h; exact h.symm⟩

/-- A completion ends with its notification (R81). -/
theorem completionOutputs_done (s : State) (r : DecResult) : ∃ os ok, completionOutputs s r = os ++ [.done ok] := by
  cases r with
  | checksumMismatch => exact ⟨[], false, rfl⟩
  | decoded a b v =>
    simp only [completionOutputs]
    split
    · exact ⟨[_], true, rfl⟩
    · exact ⟨[], true, rfl⟩

/-- `RX` keeps the invariants. -/
theorem receive_inv {s t : State} {ch : List Byte} (h : s.Inv) (hr : receive ch s = .next t) : t.Inv := by
  rcases receive_next hr with ⟨-, rfl⟩ | ⟨-, -, r, rfl⟩
  · exact copyChunk_inv h ch
  · have hc := copyChunk_inv h ch
    constructor
    · exact h.cap_ge
    · simp
    · simp
    · simp
    · simp
    · simp
    · simp
    · exact hc.canonical
    · exact hc.bounded

/-- In a reachable state `RX` goes on (R41). -/
theorem receive_total {s : State} (h : s.Inv) (ch : List Byte) : ∃ t, receive ch s = .next t := by
  obtain ⟨bs, hb⟩ := exists_holds h
  rcases receive_cases h ch hb with ⟨-, he⟩ | ⟨-, -, r, -, he⟩ <;> exact ⟨_, he⟩

/-! ## ISSUE -/

/-- All an `ISSUE` can do (R77, R78, R93). -/
theorem issue_cases (f : State → State) (s : State) :
    (s.linkOpen = false ∧ issue f s = .next (raise .transportUnavailable s)) ∨
    (s.linkOpen = true ∧ s.busy = true ∧ issue f s = .next (raise .busy s)) ∨
    (s.linkOpen = true ∧ s.busy = false ∧ issue f s = .next (f s)) := by
  cases hl : s.linkOpen <;> cases hb : s.busy <;> simp [issue, hl, hb]

end Sys2Proof.Machine
end

