-- ==== Sys2Proof/Laws/Exec.lean ====
section
/-! SUPPORT. What one instruction can do, said once: the effect of each kind of instruction, and what no instruction looks
at. -/

namespace Sys2Proof.Machine

/-- The effects an instruction that answers a next state can have. -/
inductive Effect (i : Instr) (s t : State) : Prop
  /-- bytes arrive -/
  | arrive (ch : List Byte) (hb : bytesArriving i = some ch) (hi : isIssue i = false) (hc : ¬ Cancels i) (h : receive ch s = .next t)
  /-- `RESET`, `CLOSE` -/
  | cancel (hb : bytesArriving i = none) (hi : isIssue i = false) (hc : Cancels i)
      (h : t = disarm (setLink false s))
  /-- `OPEN` -/
  | link (he : i = .openLink) (h : t = setLink true s)
  /-- an `ISSUE` while closed -/
  | unavailable (hb : bytesArriving i = none) (hi : isIssue i = true) (hc : ¬ Cancels i) (hl : s.linkOpen = false)
      (h : t = raise .transportUnavailable s)
  /-- an `ISSUE` while a request is in flight -/
  | busy (hb : bytesArriving i = none) (hi : isIssue i = true) (hc : ¬ Cancels i) (hl : s.linkOpen = true)
      (hs : s.busy = true) (h : t = raise .busy s)
  /-- an accepted read request -/
  | armRead (a : Addr) (c : Word) (d : Dest) (hb : bytesArriving i = none) (hi : isIssue i = true) (hc : ¬ Cancels i)
      (hl : s.linkOpen = true) (hs : s.busy = false) (h : t = emit [.tx (encodeRead a c)] (armRead c d s))
  /-- an accepted write request -/
  | armWrite (a : Addr) (w : Word) (hb : bytesArriving i = none) (hi : isIssue i = true) (hc : ¬ Cancels i)
      (hl : s.linkOpen = true) (hs : s.busy = false) (h : t = emit [.tx (encodeWrite a w)] (armWrite s))
  /-- a pure function gives its result -/
  | result (r : FnResult) (hb : bytesArriving i = none) (hi : isIssue i = false) (hc : ¬ Cancels i) (h : t = giveResult r s)

theorem exec_arriving {i : Instr} {ch : List Byte} (h : bytesArriving i = some ch) (s : State) :
    exec i s = receive ch s := by
  cases i <;> simp only [bytesArriving, Option.some.injEq, reduceCtorEq] at h <;> subst h <;> rfl

/-- What a read request does, whichever row spells it. -/
theorem issueRead_effect {i : Instr} {a : Addr} {c : Word} {d : Dest} {s t : State} (hb : bytesArriving i = none)
    (hi : isIssue i = true) (hc : ¬ Cancels i) (h : issueRead a c d s = .next t) : Effect i s t := by
  unfold issueRead at h
  rcases issue_cases (fun s => emit [.tx (encodeRead a c)] (armRead c d s)) s with
    ⟨hl, he⟩ | ⟨hl, hs, he⟩ | ⟨hl, hs, he⟩ <;> rw [he] at h <;> injection h with h
  · exact .unavailable hb hi hc hl h.symm
  · exact .busy hb hi hc hl hs h.symm
  · exact .armRead a c d hb hi hc hl hs h.symm

/-- What a write request does, whichever row spells it. -/
theorem issueWrite_effect {i : Instr} {a : Addr} {w : Word} {s t : State} (hb : bytesArriving i = none)
    (hi : isIssue i = true) (hc : ¬ Cancels i) (h : issueWrite a w s = .next t) : Effect i s t := by
  unfold issueWrite at h
  rcases issue_cases (fun s => emit [.tx (encodeWrite a w)] (armWrite s)) s with
    ⟨hl, he⟩ | ⟨hl, hs, he⟩ | ⟨hl, hs, he⟩ <;> rw [he] at h <;> injection h with h
  · exact .unavailable hb hi hc hl h.symm
  · exact .busy hb hi hc hl hs h.symm
  · exact .armWrite a w hb hi hc hl hs h.symm

/-- An instruction that answers a next state has one of the effects. -/
theorem exec_effect {i : Instr} {s t : State} (h : exec i s = .next t) : Effect i s t := by
  cases i with
  | rdReq a r => exact issueRead_effect rfl rfl (by simp) h
  | wrReq a w => exact issueWrite_effect rfl rfl (by simp) h
  | wrResp p => exact .arrive _ rfl rfl (by simp) h
  | rdResp e v k => exact .arrive _ rfl rfl (by simp) h
  | reset =>
    injection h with h
    exact .cancel rfl rfl (.inl rfl) h.symm
  | openLink =>
    injection h with h
    exact .link rfl h.symm
  | closeLink =>
    injection h with h
    exact .cancel rfl rfl (.inr rfl) h.symm
  | issueRd a c d => exact issueRead_effect rfl rfl (by simp) h
  | issueWr a w => exact issueWrite_effect rfl rfl (by simp) h
  | rx ch => exact .arrive _ rfl rfl (by simp) h
  | cksum b =>
    injection h with h
    exact .result _ rfl rfl (by simp) h.symm
  | encRd a c =>
    injection h with h
    exact .result _ rfl rfl (by simp) h.symm
  | encWr a w =>
    injection h with h
    exact .result _ rfl rfl (by simp) h.symm
  | expLen k c =>
    injection h with h
    exact .result _ rfl rfl (by simp) h.symm
  | decResp k c b =>
    simp only [exec, execDecResp] at h
    split at h
    · injection h with h
      exact .result _ rfl rfl (by simp) h.symm
    · cases h

/-- An outcome with its next state changed. -/
def mapNext (f : State → State) : Host.Outcome State Fault Refusal → Host.Outcome State Fault Refusal
  | .next t => .next (f t)
  | .fault e => .fault e
  | .refused r => .refused r

theorem readRun_with_input (s : State) (rs : List Record) : ∀ n i,
    readRun { s with input := rs } i n = readRun s i n := by
  intro n i
  exact readRun_congr (s := { s with input := rs }) (t := s) rfl n i (fun _ _ _ => rfl)

theorem complete_with_input (s : State) (rs : List Record) :
    complete { s with input := rs } = mapNext (fun t => { t with input := rs }) (complete s) := by
  unfold complete
  simp only [readRun_with_input]
  split
  · cases hr : readRun s 0 s.expLen with
    | error f => rfl
    | ok b =>
      simp only [kindInFlight, countInFlight]
      cases hd : decodeResponse (if s.pendValid = true then .rd else .wr)
        (if s.pendValid = true then s.pendCount else 0) b with
      | none => rfl
      | some r => cases r <;> rfl
  · rfl

theorem issue_with_input (f : State → State) (s : State) (rs : List Record)
    (hf : ∀ s : State, f { s with input := rs } = { f s with input := rs }) :
    issue f { s with input := rs } = mapNext (fun t => { t with input := rs }) (issue f s) := by
  simp only [issue, hf]
  split <;> [split <;> rfl; rfl]

theorem issueRead_with_input (a : Addr) (c : Word) (d : Dest) (s : State) (rs : List Record) :
    issueRead a c d { s with input := rs } = mapNext (fun t => { t with input := rs }) (issueRead a c d s) :=
  issue_with_input _ s rs (fun _ => rfl)

theorem issueWrite_with_input (a : Addr) (w : Word) (s : State) (rs : List Record) :
    issueWrite a w { s with input := rs } = mapNext (fun t => { t with input := rs }) (issueWrite a w s) :=
  issue_with_input _ s rs (fun _ => rfl)

/-- No instruction looks at the records still presented, or changes them. -/
theorem exec_with_input (i : Instr) (s : State) (rs : List Record) :
    exec i { s with input := rs } = mapNext (fun t => { t with input := rs }) (exec i s) := by
  cases i with
  | wrResp p => exact complete_with_input (copyChunk (packetBytes p) s) rs
  | rdResp e v k => exact complete_with_input (copyChunk (readResponseBytes e v k) s) rs
  | rx ch => exact complete_with_input (copyChunk ch s) rs
  | rdReq a r => exact issueRead_with_input _ _ _ s rs
  | wrReq a w => exact issueWrite_with_input _ _ s rs
  | issueRd a c d => exact issueRead_with_input a c d s rs
  | issueWr a w => exact issueWrite_with_input a w s rs
  | decResp k c b =>
    simp only [exec, execDecResp]
    split <;> rfl
  | _ => rfl

theorem complete_with_link (s : State) (up : Bool) :
    complete { s with linkOpen := up } = mapNext (fun t => { t with linkOpen := up }) (complete s) := by
  unfold complete
  have hr : readRun { s with linkOpen := up } 0 s.expLen = readRun s 0 s.expLen :=
    readRun_congr (s := { s with linkOpen := up }) (t := s) rfl _ _ (fun _ _ _ => rfl)
  simp only [hr]
  split
  · cases hr : readRun s 0 s.expLen with
    | error f => rfl
    | ok b =>
      simp only [kindInFlight, countInFlight]
      cases hd : decodeResponse (if s.pendValid = true then .rd else .wr)
        (if s.pendValid = true then s.pendCount else 0) b with
      | none => rfl
      | some r => cases r <;> rfl
  · rfl

/-- What a completion outputs names the destination and nothing else of it. -/
theorem completionOutputs_mapDest (f : Dest → Dest) (s : State) (r : DecResult) :
    completionOutputs (s.mapDest f) r = (completionOutputs s r).map (Output.mapDest f) := by
  cases r with
  | checksumMismatch => rfl
  | decoded c a v =>
    by_cases h : s.pendValid ∧ v ≠ [] <;> simp [completionOutputs, State.mapDest, h, Output.mapDest]

/-- The completion phase does not look into a destination. -/
theorem complete_mapDest (f : Dest → Dest) (s : State) :
    complete (s.mapDest f) = mapNext (State.mapDest f) (complete s) := by
  have hr : readRun (s.mapDest f) 0 s.expLen = readRun s 0 s.expLen :=
    readRun_congr (s := s.mapDest f) (t := s) rfl _ _ (fun _ _ _ => rfl)
  unfold complete
  by_cases h : s.busy ∧ s.expLen ≤ s.rxCount
  · rw [if_pos h, if_pos (show (s.mapDest f).busy ∧ (s.mapDest f).expLen ≤ (s.mapDest f).rxCount from h)]
    change (match readRun (s.mapDest f) 0 s.expLen with
      | .error e => _
      | .ok b => _) = _
    rw [hr]
    cases readRun s 0 s.expLen with
    | error e => rfl
    | ok b =>
      change (match decodeResponse (kindInFlight s) (countInFlight s) b with
        | none => _
        | some r => _) = mapNext _ (match decodeResponse (kindInFlight s) (countInFlight s) b with
        | none => _
        | some r => _)
      cases decodeResponse (kindInFlight s) (countInFlight s) b with
      | none => rfl
      | some r =>
        simp only [completionOutputs_mapDest, mapNext]
        simp [State.mapDest, emit, disarm]
  · rw [if_neg h, if_neg (show ¬ ((s.mapDest f).busy ∧ (s.mapDest f).expLen ≤ (s.mapDest f).rxCount) from h)]
    rfl

/-- The first instruction of a run that goes on. -/
theorem execAll_cons {i : Instr} {is : List Instr} {s t : State} (h : execAll (i :: is) s = .next t) :
    ∃ u, exec i s = .next u ∧ execAll is u = .next t := by
  rw [execAll] at h
  cases hx : exec i s with
  | next u => rw [hx] at h; exact ⟨u, rfl, h⟩
  | fault f => rw [hx] at h; cases h
  | refused r => rw [hx] at h; cases h

end Sys2Proof.Machine
end

