-- ==== Sys2Proof/Laws/PerInstr.lean ====
section
/-! SUPPORT. Families of facts about the instructions as syntax, one lemma for each constructor. -/

namespace Sys2Proof.Laws.RoundTrip

open Machine

/-- The decoder gives back a well-formed instruction from its own record. -/
def Statement (i : Instr) : Prop := WellFormed i → decode (encode i) = .ok i

theorem take_packetBytes (p : Packet) (bs : List Byte) : (packetBytes p ++ bs).take 8 = packetBytes p := by
  rw [List.take_append_of_le_length (by simp), List.take_of_length_le (by simp)]

theorem drop_packetBytes (p : Packet) (bs : List Byte) : (packetBytes p ++ bs).drop 8 = bs := by
  rw [List.drop_append_of_le_length (by simp), List.drop_of_length_le (by simp), List.nil_append]

/-- A read's frame and the handle of a destination behind it. -/
theorem decodeRequest_read (addr : WireAddr) (count : Word) (ck : Byte) (dest : Dest) :
    decodeRequest (packetBytes ⟨Config.header, Config.ctlRead, addr, count, ck⟩ ++ dest.handle) =
      .ok (.rdReq addr ⟨count, dest⟩) := by
  simp [decodeRequest, take_packetBytes, drop_packetBytes, decodePacket_packetBytes]

/-- A write's frame, and nothing behind it. -/
theorem decodeRequest_write (addr : WireAddr) (value : Word) (ck : Byte) :
    decodeRequest (packetBytes ⟨Config.header, Config.ctlWrite, addr, value, ck⟩) = .ok (.wrReq addr value) := by
  have ht := take_packetBytes ⟨Config.header, Config.ctlWrite, addr, value, ck⟩ []
  rw [List.append_nil] at ht
  simp only [decodeRequest, ht, decodePacket_packetBytes, packetBytes_length]
  rfl

theorem decodeKind_kindByte (k : Kind) : decodeKind (kindByte k) = .ok k := by cases k <;> rfl

theorem rdReq (addr : WireAddr) (read : PendingRead) : Statement (.rdReq addr read) :=
  fun _ => decodeRequest_read addr read.count _ read.dest

theorem wrReq (addr : WireAddr) (value : Word) : Statement (.wrReq addr value) :=
  fun _ => decodeRequest_write addr value _

theorem wrResp (p : Packet) : Statement (.wrResp p) := fun _ => by
  simp [decode, encode, decodeWriteResponse, decodePacket_packetBytes]

theorem rdResp (echo : Packet) (values : List Word) (ck : Byte) : Statement (.rdResp echo values ck) := fun h => by
  have hv : 1 ≤ values.length := by
    simp only [WellFormed, Instr.wellFormed, Bool.and_eq_true, decide_eq_true_eq] at h
    exact h.1
  have hl := readResponseBytes_length echo values ck
  have ht : (readResponseBytes echo values ck).take 8 = packetBytes echo := by
    simp [readResponseBytes, List.take_append]
  have hd : ((readResponseBytes echo values ck).drop 8).dropLast = bytesOf values := by
    simp [readResponseBytes, List.drop_append]
  have hg : (readResponseBytes echo values ck).getLast? = some ck := by
    simp [readResponseBytes]
  simp only [decode, encode, decodeReadResponse, hl, ht, hd, hg, decodePacket_packetBytes, wordsOf_bytesOf]
  rw [if_pos ⟨by omega, by omega⟩]

theorem reset : Statement .reset := fun _ => rfl

theorem openLink : Statement .openLink := fun _ => rfl

theorem closeLink : Statement .closeLink := fun _ => rfl

theorem issueRd (addr : Addr) (count : Word) (dest : Dest) : Statement (.issueRd addr count dest) := fun _ => by
  simp [decode, encode, decodeCmd, le16, le32, decodeIssueRd]

theorem issueWr (addr : Addr) (value : Word) : Statement (.issueWr addr value) := fun _ => by
  simp [decode, encode, decodeCmd, le16, le32, decodeAddrWord]

theorem rx (chunk : List Byte) : Statement (.rx chunk) := fun _ => rfl

theorem cksum (bytes : List Byte) : Statement (.cksum bytes) := fun _ => rfl

theorem encRd (addr : Addr) (count : Word) : Statement (.encRd addr count) := fun _ => by
  simp [decode, encode, decodeCmd, le16, le32, decodeAddrWord]

theorem encWr (addr : Addr) (value : Word) : Statement (.encWr addr value) := fun _ => by
  simp [decode, encode, decodeCmd, le16, le32, decodeAddrWord]

theorem expLen (kind : Kind) (count : Word) : Statement (.expLen kind count) := fun _ => by
  simp [decode, encode, decodeCmd, le32, decodeExpLen, decodeKind_kindByte]

theorem decResp (kind : Kind) (count : Word) (bytes : List Byte) : Statement (.decResp kind count bytes) := fun _ => by
  simp [decode, encode, decodeCmd, le32, decodeDecResp, decodeKind_kindByte]

end Sys2Proof.Laws.RoundTrip
end

