-- ==== Sys2Proof/Tests/Slice0.lean ====
section
/-! SUPPORT. Tests: expected results from the vectors of 95_test_vectors.md (V<n>) and the examples in the rules; the smoke
test of WellFormed; for each statement with hypotheses a witness that meets them. -/

namespace Sys2Proof.Tests

open Machine

/-- A state with capacity 16; everything not named is as after reset. -/
def st (linkOpen busy : Bool) (rxCount expLen : Nat) (pend : Option (Dest × Word)) (bytes : List Byte) : State where
  linkOpen := linkOpen
  busy := busy
  rxCount := rxCount
  expLen := expLen
  pendValid := pend.isSome
  pendDest := (pend.map (·.1)).getD Dest.empty
  pendCount := (pend.map (·.2)).getD 0
  buf := Memory.writeRun [] 0 bytes
  bufCap := 16
  input := []
  outputs := []
  results := []

def dst0 : Dest := Dest.empty

/-- closed; idle; a read of one word in flight; the same with three bytes in; a write in flight -/
def closed : State := st false false 0 0 none []
def idle : State := st true false 0 0 none []
def reading : State := st true true 0 13 (some (dst0, 1)) []
def reading3 : State := st true true 3 13 (some (dst0, 1)) [0x7D, 0x01, 0xCA]
def writing : State := st true true 0 8 none []
/-- P8: eight bytes that arrived while idle, then a write issued -/
def stray : State := st true false 8 0 none [0x7D, 0x12, 0x80, 0, 0, 0, 0, 0x23]
def strayWriting : State := st true true 8 8 none [0x7D, 0x12, 0x80, 0, 0, 0, 0, 0x23]

def after (i : Instr) (s : State) : Option State :=
  match exec i s with
  | .next t => some t
  | .fault _ => none
  | .refused _ => none

def outs (i : Instr) (s : State) : Option (List Output) := (after i s).map (·.outputs)
def res (i : Instr) (s : State) : Option (List FnResult) := (after i s).map (·.results)

def readFrame : List Byte := [0x7D, 0x01, 0xCA, 0x01, 0, 0, 0, 0xE9, 0x2A, 0, 0, 0, 0x08]

/-! ## WellFormed -/

def pk : Packet := ⟨0x7D, 1, 0x0CA, 1, 0xE9⟩

theorem test_illformed_no_values : (Instr.rdResp pk [] 0x32).wellFormed = false := by decide
theorem test_illformed_too_many_values : (Instr.rdResp pk (List.replicate (2 ^ 32) 0) 0x32).wellFormed = false := by
  simp only [Instr.wellFormed, List.length_replicate]; decide
theorem test_wellformed_most_values : (Instr.rdResp pk (List.replicate (2 ^ 32 - 1) 0) 0x32).wellFormed = true := by
  simp only [Instr.wellFormed, List.length_replicate]; decide
theorem test_illformed_dec_resp : (Instr.decResp .rd 1 [0x7D, 1, 0xCA, 1, 0, 0, 0, 0xE9]).wellFormed = false := by decide
theorem test_wellformed_dec_resp : (Instr.decResp .rd 1 readFrame).wellFormed = true := by decide

/-! ## Decoding: words written out from R43 to R54 -/

theorem test_decode_rdReq : decodeTableWord 64 0x4E01020304BCA17D = some (.rdReq 0xABC ⟨0x01020304, dst0⟩) := by decide
theorem test_decode_wrReq : decodeTableWord 64 0xA08000000083127D = some (.wrReq 0x183 0x80000000) := by decide
theorem test_decode_not_a_request :
    decode ⟨.request, [0x7D, 0x03, 0xCA, 1, 0, 0, 0, 0]⟩ = .error (.notARequest 0x37D) := rfl
theorem test_decode_wrResp : decode ⟨.writeResponse, [0x7D, 0x12, 0x80, 0x78, 0x56, 0x34, 0x12, 0x0F]⟩ =
    .ok (.wrResp ⟨0x7D, 2, 0x180, 0x12345678, 0x0F⟩) := rfl
theorem test_decode_rdResp : decode ⟨.readResponse, readFrame⟩ = .ok (.rdResp pk [0x2A] 0x08) := rfl
theorem test_decode_rdResp_length : decode ⟨.readResponse, readFrame.take 12⟩ = .error (.frameLength 12) := rfl
theorem test_decode_ops : [0, 1, 2, 5, 8].map (decodeTableWord 4) =
    [some .reset, some .openLink, some .closeLink, some (.rx []), some (.cksum [])] := by decide
theorem test_decode_unassigned : decode ⟨.cmd, [13]⟩ = .error (.unassignedOp 13) := rfl
theorem test_decode_issueRd : decode ⟨.cmd, [3, 0xCA, 0, 2, 0, 0, 0]⟩ = .ok (.issueRd 0x00CA 2 dst0) := rfl
theorem test_decode_issueWr : decode ⟨.cmd, [4, 0x82, 0x11, 0xFF, 0, 0, 0x80]⟩ = .ok (.issueWr 0x1182 0x800000FF) := rfl
theorem test_decode_enc : decode ⟨.cmd, [9, 0xF6, 0, 20, 0, 0, 0]⟩ = .ok (.encRd 0x00F6 20) ∧
    decode ⟨.cmd, [10, 0x09, 1, 1, 0, 0, 0]⟩ = .ok (.encWr 0x0109 1) := ⟨rfl, rfl⟩
theorem test_decode_expLen : decode ⟨.cmd, [11, 0, 3, 0, 0, 0]⟩ = .ok (.expLen .rd 3) ∧
    decode ⟨.cmd, [11, 2, 3, 0, 0, 0]⟩ = .error (.unknownKind 2) := ⟨rfl, rfl⟩
theorem test_decode_decResp : decode ⟨.cmd, 12 :: 1 :: 0 :: 0 :: 0 :: 0 :: [0xAA]⟩ = .ok (.decResp .wr 0 [0xAA]) := rfl
/-- Every word of the table, its operand words zero, is its row's instruction. -/
theorem test_table_words : (decodeTableWord 64 0x17D, decodeTableWord 64 0x27D, decodeTableWord 64 0) =
      (some (.rdReq 0 ⟨0, dst0⟩), some (.wrReq 0 0), some (.wrResp ⟨0, 0, 0, 0, 0⟩)) ∧
    [3, 4, 9, 10, 11, 12].map (decodeTableWord 8) =
      [some (.issueRd 0 0 dst0), some (.issueWr 0 0), some (.encRd 0 0), some (.encWr 0 0), some (.expLen .rd 0),
        some (.decResp .rd 0 (List.replicate 13 0))] := by decide

/-- Every row's word runs as the first instruction after reset (not a statement: reset's capacity is uninterpreted). -/
theorem test_table_words_run : ∀ p ∈ [(64, 0x17D), (64, 0x27D), (64, 0), (104, 0), (8, 0), (8, 1), (8, 2), (8, 3), (8, 4),
    (8, 5), (8, 8), (8, 9), (8, 10), (8, 11)], (match step (State.reset.withFetchWord p.1 p.2) with
      | .next _ => true
      | .fault _ => false
      | .refused _ => false) = true := by decide

/-- The handle behind the operands is the destination, whichever it is (`DST0` of 95_test_vectors.md is arbitrary). -/
theorem test_decode_dest (d : Dest) : decode ⟨.cmd, 3 :: 0xCA :: 0 :: 2 :: 0 :: 0 :: 0 :: d.handle⟩ =
    .ok (.issueRd 0x00CA 2 d) := by
  simp [decode, decodeCmd, decodeIssueRd, decodeDest, d.valid, unle16, unle32]

/-! ## The pure functions -/

/-- V6, V9c -/
theorem test_cksum : res (.cksum [0x80, 0x80]) closed = some [.byte 0x32] ∧
    res (.cksum [0xEF, 0xBE, 0xAD, 0xDE]) closed = some [.byte 0xFA] := by decide
/-- V15a, V14a -/
theorem test_encRd : res (.encRd 0x0ABC 0x01020304) closed = some [.frame [0x7D, 0xA1, 0xBC, 4, 3, 2, 1, 0x4E]] := by decide
theorem test_encRd_upper_bits : res (.encRd 0x1180 1) closed = some [.frame [0x7D, 0x11, 0x80, 1, 0, 0, 0, 0x23]] := by
  decide
/-- V17, V19 -/
theorem test_encWr : res (.encWr 0x0180 0x12345678) closed =
    some [.frame [0x7D, 0x12, 0x80, 0x78, 0x56, 0x34, 0x12, 0x0F]] := by decide
theorem test_encWr_negative : res (.encWr 0x00F6 0xFFFFFFFE) closed =
    some [.frame [0x7D, 0x02, 0xF6, 0xFE, 0xFF, 0xFF, 0xFF, 0xC2]] := by decide
/-- V41, V42, V48 -/
theorem test_expLen : res (.expLen .wr 12345) closed = some [.length 8] ∧ res (.expLen .rd 0) closed = some [.length 13] ∧
    res (.expLen .rd 0xFFFFFFFF) closed = some [.length 17179869189] := by decide
/-- V31 -/
theorem test_decResp : res (.decResp .rd 2 [0x7D, 1, 0xCA, 2, 0, 0, 0, 0xE8, 0x40, 0x42, 0x0F, 0, 0xFF, 0xFF, 0xFF, 0xFF, 0xA5])
    closed = some [.response (.decoded 1 0x00CA [0x000F4240, 0xFFFFFFFF])] := by decide
/-- V34, V37, V38, V39 -/
theorem test_decResp_others :
    res (.decResp .rd 1 [0x7D, 1, 0xCA, 1, 0, 0, 0, 0xE9, 1, 0, 0, 0, 0x30]) closed = some [.response .checksumMismatch] ∧
    res (.decResp .rd 1 [0x7D, 2, 0xCA, 1, 0, 0, 0, 0xE9, 1, 0, 0, 0, 0x31]) closed = some [.response (.decoded 2 0x00CA [])] ∧
    res (.decResp .wr 0 [0x7D, 0x12, 0x80, 0x78, 0x56, 0x34, 0x12, 0x0F]) closed = some [.response (.decoded 2 0x0180 [])] ∧
    after (.decResp .rd 1 [0x7D, 1, 0xCA, 1, 0, 0, 0, 0xE9]) closed = none := by decide

/-! ## The events -/

/-- V50, V52, V57 -/
theorem test_reset : (after .reset reading3).map (fun t => (t.linkOpen, t.busy, t.rxCount, t.pendValid)) =
    some (false, false, 0, false) := by decide
theorem test_open : after .openLink closed = some idle := by decide
theorem test_close : after .closeLink reading3 =
    some { reading3 with linkOpen := false, busy := false, rxCount := 0, pendValid := false } := by decide
/-- V53, V51 -/
theorem test_issueRd : after (.issueRd 0x00CA 1 dst0) idle =
    some { reading with outputs := [.tx [0x7D, 1, 0xCA, 1, 0, 0, 0, 0xE9]] } := by decide
theorem test_issueRd_closed : outs (.issueRd 0x00CA 1 dst0) closed = some [.reject .transportUnavailable] := by decide
/-- 42_reassembly.md R78's example, V54 -/
theorem test_issueWr : outs (.issueWr 0x0180 0x12345678) idle =
    some [.tx [0x7D, 0x12, 0x80, 0x78, 0x56, 0x34, 0x12, 0x0F]] := by decide
theorem test_issueWr_busy : after (.issueWr 0x0180 0) reading = some { reading with outputs := [.reject .busy] } := by decide
/-- V62; V58: two of four bytes fit -/
theorem test_rx_read : outs (.rx readFrame) reading = some [.wb dst0 [0x2A], .done true] := by decide
theorem test_rx_overrun : (after (.rx [0xAA, 0xBB, 0xCC, 0xDD]) (st true false 14 0 none (List.replicate 14 0))).map
    (fun t => (t.rxCount, t.buf.read 14, t.buf.read 15, t.buf.read 16)) = some (16, some 0xAA, some 0xBB, none) := by decide

/-! ## The frames -/

theorem test_rdReq : after (.rdReq 0x0CA ⟨1, dst0⟩) idle =
    some { reading with outputs := [.tx [0x7D, 1, 0xCA, 1, 0, 0, 0, 0xE9]] } := by decide
theorem test_rdReq_closed : outs (.rdReq 0x0CA ⟨1, dst0⟩) closed = some [.reject .transportUnavailable] := by decide
theorem test_wrReq_busy : outs (.wrReq 0x182 1) writing = some [.reject .busy] := by decide
theorem test_wrReq : outs (.wrReq 0x182 0xFFFFFFFF) idle =
    some [.tx [0x7D, 0x12, 0x82, 0xFF, 0xFF, 0xFF, 0xFF, 0x25]] := by decide
/-- V60, V61 -/
theorem test_wrResp : outs (.wrResp ⟨0x7D, 2, 0x180, 0, 0x23⟩) writing = some [.done true] := by decide
theorem test_wrResp_bad : outs (.wrResp ⟨0x7D, 2, 0x180, 0, 0x24⟩) writing = some [.done false] := by decide
/-- P7 step 6 -/
theorem test_rdResp : outs (.rdResp pk [0x2A] 0x08) reading = some [.wb dst0 [0x2A], .done true] := by decide
theorem test_rdResp_other_control : outs (.rdResp ⟨0x7D, 2, 0x0CA, 1, 0xE9⟩ [1] 0x31) reading = some [.done true] := by decide

/-- R87 -/
theorem test_failure_codes : [none, some Failure.transportUnavailable, some .checksumMismatch, some .bufferOverrun,
    some .busy].map failureCode = [0, 1, 2, 3, 4] := by decide

/-! ## Witnesses: states and operands that meet the hypotheses of the statements -/

theorem closed_inv : closed.Inv := by constructor <;> decide
theorem idle_inv : idle.Inv := by constructor <;> decide
theorem reading_inv : reading.Inv := by constructor <;> decide
theorem reading3_inv : reading3.Inv := by constructor <;> decide
theorem writing_inv : writing.Inv := by constructor <;> decide
theorem stray_inv : stray.Inv := by constructor <;> decide
theorem strayWriting_inv : strayWriting.Inv := by constructor <;> decide
theorem reading3_holds : reading3.Holds [0x7D, 0x01, 0xCA] := by constructor <;> decide

theorem witness_step : ∃ s t u : State, (∃ r rest i, s.input = r :: rest ∧ decode r = .ok i) ∧
    (∃ r rest e, t.input = r :: rest ∧ decode r = .error e) ∧ u.input = [] :=
  ⟨{ idle with input := [⟨.cmd, [1]⟩] }, { idle with input := [⟨.cmd, [6]⟩] }, idle, ⟨_, _, _, rfl, rfl⟩,
    ⟨_, _, _, rfl, rfl⟩, rfl⟩

theorem witness_record_meaning : decode ⟨.cmd, [1]⟩ = .ok .openLink ∧
    decode ⟨.request, [0x7D, 1, 0xCA, 1, 0, 0, 0, 0xE8]⟩ = .ok (.rdReq 0x0CA ⟨1, dst0⟩) := ⟨rfl, rfl⟩

theorem witness_step_next : ∃ s t : State, s.Inv ∧ step s = .next t ∧ t ≠ s :=
  ⟨{ idle with input := [⟨.cmd, [2]⟩] }, closed, by constructor <;> decide, rfl, by decide⟩

theorem witness_completes : reading.Inv ∧ WellFormed (.rx readFrame) ∧ WellFormed (.decResp .rd 1 readFrame) ∧
    WellFormed (.rdResp pk [0x2A] 0x08) := ⟨reading_inv, by decide, by decide, by decide⟩

theorem witness_fold : ∃ s : State, (∀ i ∈ [Instr.openLink, .rx [1]], WellFormed i) ∧
    s.input = [Instr.openLink, .rx [1]].map encode ++ [⟨.cmd, [0]⟩] :=
  ⟨{ closed with input := [⟨.cmd, [1]⟩, ⟨.cmd, [5, 1]⟩, ⟨.cmd, [0]⟩] }, by decide, rfl⟩

theorem witness_reset_close_open : (closed.linkOpen = false ∧ closed.busy = false ∧ closed.rxCount = 0 ∧
    closed.pendValid = false) ∧ idle.linkOpen = true ∧ (closed.Inv ∧ closed.linkOpen = false) :=
  ⟨by decide, by decide, closed_inv, by decide⟩

theorem witness_issue : closed.linkOpen = false ∧ (reading.linkOpen = true ∧ reading.busy = true) ∧
    idle.linkOpen = true ∧ idle.busy = false := by decide

theorem witness_exec_next : ∃ t u v : State, exec (.issueRd 0xCA 1 dst0) closed = .next t ∧
    exec (.issueWr 0 0) reading = .next u ∧ t.outputs = closed.outputs ++ [.reject .transportUnavailable] ∧
    exec (.rx [1]) idle = .next v ∧ isIssue (.rx [1]) = false :=
  ⟨_, _, _, rfl, rfl, rfl, rfl, rfl⟩

/-- `ArrivingBytesAreStored` and `ArrivalWithoutCompletion` at the boundaries: an empty chunk, the last free offset, a full
buffer. -/
theorem witness_arriving : bytesArriving (.rx []) = some [] ∧
    (after (.rx []) idle).isSome = true ∧
    (after (.rx [1, 2]) (st true false 15 0 none (List.replicate 15 0))).isSome = true ∧
    (after (.rx [1]) (st true false 16 0 none (List.replicate 16 0))).map (·.rxCount) = some 16 ∧
    ¬ (idle.busy = true ∧ idle.expLen ≤ idle.rxCount + min 0 (idle.bufCap - idle.rxCount)) := by decide

/-- `CompletionOfARead`: the shared hypotheses, and each of its three cases. -/
theorem witness_completion_read : reading3.Inv ∧ reading3.busy = true ∧ reading3.pendValid = true ∧
    reading3.Holds [0x7D, 0x01, 0xCA] ∧ bytesArriving (.rx (readFrame.drop 3)) = some (readFrame.drop 3) ∧
    1 = max reading3.pendCount.toNat 1 ∧ readFrame = ([0x7D, 0x01, 0xCA] ++ readFrame.drop 3).take (9 + 4 * 1) ∧
    9 + 4 * 1 ≤ reading3.rxCount + (readFrame.drop 3).length ∧ 9 + 4 * 1 ≤ reading3.bufCap :=
  ⟨reading3_inv, by decide, by decide, reading3_holds, rfl, by decide, by decide, by decide, by decide⟩
theorem witness_completion_read_cases :
    ((readFrame.drop 8).map BitVec.toNat).sum % 256 = 0x32 ∧ (readFrame.getD 1 0).toNat % 16 = 1 ∧
    ((([0x7D, 2, 0xCA, 1, 0, 0, 0, 0xE9, 1, 0, 0, 0, 0x31] : List Byte).drop 8).map BitVec.toNat).sum % 256 = 0x32 ∧
    (([0x7D, 2, 0xCA, 1, 0, 0, 0, 0xE9, 1, 0, 0, 0, 0x31] : List Byte).getD 1 0).toNat % 16 ≠ 1 ∧
    ((([0x7D, 1, 0xCA, 1, 0, 0, 0, 0xE9, 1, 0, 0, 0, 0x30] : List Byte).drop 8).map BitVec.toNat).sum % 256 ≠ 0x32 := by
  decide

theorem witness_completion_write : strayWriting.Inv ∧ strayWriting.busy = true ∧ strayWriting.pendValid = false ∧
    strayWriting.Holds [0x7D, 0x12, 0x80, 0, 0, 0, 0, 0x23] ∧ bytesArriving (.rx []) = some [] ∧
    8 ≤ strayWriting.rxCount + ([] : List Byte).length :=
  ⟨strayWriting_inv, by decide, by decide, by constructor <;> decide, rfl, by decide⟩

theorem witness_surplus : writing.Inv ∧ writing.busy = true ∧
    writing.rxCount + (List.replicate 8 (0 : Byte)).length = writing.expLen ∧ writing.expLen ≤ writing.bufCap :=
  ⟨writing_inv, by decide, by decide, by decide⟩

theorem witness_empty_chunk : ¬ (reading3.busy = true ∧ reading3.expLen ≤ reading3.rxCount) ∧
    (strayWriting.Inv ∧ strayWriting.busy = true ∧ strayWriting.expLen ≤ strayWriting.rxCount) ∧
    (∃ t, exec (.issueWr 0x180 0) stray = .next t ∧ t.busy = true ∧ t.expLen ≤ t.rxCount) ∧
    (∃ t, exec .openLink strayWriting = .next t ∧ t.busy = true ∧ t.expLen ≤ t.rxCount) :=
  ⟨by decide, ⟨strayWriting_inv, by decide, by decide⟩, ⟨_, rfl, by decide, by decide⟩, ⟨_, rfl, by decide, by decide⟩⟩

theorem witness_chunking : (reading3.busy = true ∧ reading3.rxCount + [(0 : Byte), 0].length < reading3.expLen) ∧
    (reading3.busy = true ∧ reading3.rxCount + [readFrame.drop 3, []].flatten.length ≤ reading3.expLen) ∧
    (writing.Inv ∧ writing.busy = true ∧ writing.expLen ≤ writing.rxCount + (List.replicate 8 (0 : Byte)).length ∧
      writing.expLen ≤ writing.bufCap) := ⟨by decide, by decide, writing_inv, by decide, by decide, by decide⟩

theorem witness_clears : ∃ t u : State, Cancels .closeLink ∧ exec .closeLink reading3 = .next t ∧
    t.rxCount < reading3.rxCount ∧ exec (.rx (readFrame.drop 3)) reading3 = .next u ∧ reading3.busy = true ∧
    reading3.expLen ≤ reading3.rxCount + min (readFrame.drop 3).length (reading3.bufCap - reading3.rxCount) ∧
    u.rxCount < reading3.rxCount := ⟨_, _, .inr rfl, rfl, by decide, rfl, by decide, by decide, by decide⟩

theorem witness_responses : (writing.Inv ∧ writing.busy = true ∧ writing.pendValid = false ∧ writing.rxCount = 0) ∧
    (reading.Inv ∧ reading.busy = true ∧ reading.pendValid = true ∧ reading.rxCount = 0 ∧
      [(0x2A : Word)].length = max reading.pendCount.toNat 1 ∧ 9 + 4 * [(0x2A : Word)].length ≤ reading.bufCap) :=
  ⟨⟨writing_inv, by decide, by decide, by decide⟩, reading_inv, by decide, by decide, by decide, by decide, by decide⟩

/-- `DecodeResponseFunction` and `DecoderIgnoresTheRestOfTheEcho`: 1 = max(count, 1) at count 0 and 1; each case. -/
theorem witness_dec_resp : 1 = max (0 : Word).toNat 1 ∧ 1 = max (1 : Word).toNat 1 ∧
    (readFrame.take 8).length ≠ 9 + 4 * 1 ∧ readFrame.length = 9 + 4 * 1 ∧
    ((readFrame.drop 8).map BitVec.toNat).sum % 256 = 0x32 ∧
    (((List.replicate 13 (0 : Byte)).drop 8).map BitVec.toNat).sum % 256 ≠ 0x32 ∧
    (let b : List Byte := [0xFF, 0x01, 0xCA, 0x09, 0, 0, 0, 0, 0x2A, 0, 0, 0, 0x08];
      b.length = readFrame.length ∧ b[1]? = readFrame[1]? ∧ b[2]? = readFrame[2]? ∧ b.drop 8 = readFrame.drop 8) := by
  decide

/-- V10 and V20; V10 and V27. -/
theorem witness_corruption : (([0x7D, 1] : List Byte).length = ([0x7C, 1] : List Byte).length ∧
      ([0x7D, 1] : List Byte)[0]? ≠ ([0x7C, 1] : List Byte)[0]?) ∧
    (let f : List Byte := [0x7D, 1, 0xCA, 1, 0, 0, 0, 0xE9];
      let g : List Byte := [0x7D, 1, 0xCA, 1, 0, 0, 0, 0xE8];
      f.length = 8 ∧ g.length = 8 ∧ f.take 7 = g.take 7 ∧ f ≠ g ∧ pktOk f = true) ∧
    ([0x7D, 1] : List Byte).Perm [1, 0x7D] := ⟨by decide, by decide, by decide⟩
theorem witness_corruption_elsewhere : ∀ j, j ≠ 0 → ([0x7D, 1] : List Byte)[j]? = ([0x7C, 1] : List Byte)[j]? := by
  intro j hj
  cases j with
  | zero => exact absurd rfl hj
  | succ j => rfl

theorem witness_injective : (0x0FFF : Addr).toNat < 0x1000 ∧ (0x0180 : Addr).toNat % 0x1000 = (0x1180 : Addr).toNat % 0x1000 ∧
    pkt 1 0x0FFF 1 = pkt 1 0x0FFF 1 := by decide

theorem witness_round_trip : (0x0FFF : Addr).toNat < 0x1000 ∧ [(0xDEADBEEF : Word)].length = max (0 : Word).toNat 1 ∧
    (0xFA : Byte).toNat = (0x132 - ([(0xDEADBEEF : Word)].map (fun w => w.toNat % 256 + w.toNat / 256 % 256 +
      w.toNat / 65536 % 256 + w.toNat / 16777216)).sum % 256) % 256 := by decide

theorem witness_packet_check : ([0x7D, 1, 0xCA, 1, 0, 0, 0, 0xE9] : List Byte).length = 8 := by decide

/-- `OversizedReadNeverCompletes`: capacity 16 holds one word (P4). -/
theorem witness_oversized : idle.Inv ∧ idle.linkOpen = true ∧ idle.busy = false ∧
    Config.maxCount idle.bufCap < (2 : Word).toNat ∧ (∀ i ∈ [Instr.rx (List.replicate 17 0), .openLink], ¬ Cancels i) ∧
    ∃ t, execAll [.issueRd 0xCA 2 dst0, .rx (List.replicate 17 0), .openLink] idle = .next t :=
  ⟨idle_inv, by decide, by decide, by decide, by decide, _, rfl⟩

theorem witness_control : ∃ t u v w : State, (exec .openLink closed = .next t ∧ controlState closed = .closed ∧
      controlState t ≠ .closed) ∧
    (exec (.issueWr 0 0) idle = .next u ∧ controlState idle = .idle ∧ controlState u = .wait) ∧
    (exec .closeLink reading = .next v ∧ controlState reading = .wait ∧ controlState v = .closed) ∧
    (exec (.rx readFrame) reading = .next w ∧ controlState w = .idle) :=
  ⟨_, _, _, _, ⟨rfl, by decide, by decide⟩, ⟨rfl, by decide, by decide⟩, ⟨rfl, by decide, by decide⟩, rfl, by decide⟩

theorem witness_quiescent : stray.Inv ∧ stray.busy = false ∧
    (∀ i ∈ [Instr.rx [1], .closeLink], isIssue i = false) ∧
    ∃ t, execAll [.rx [1], .closeLink] stray = .next t := ⟨stray_inv, by decide, by decide, _, rfl⟩

/-- Two states that differ in every hidden part: bytes above the counter, `exp_len` while idle, a stale descriptor. -/
def otherIdle : State :=
  { idle with expLen := 99, pendCount := 7, buf := Memory.writeRun [] 0 [1, 2, 3], input := [⟨.cmd, [5, 9]⟩] }
theorem witness_hidden : ∃ s : State, s.Inv ∧ otherIdle.Inv ∧ s.SameObservable otherIdle ∧ s ≠ otherIdle ∧
    ∃ t, step s = .next t :=
  ⟨{ idle with input := [⟨.cmd, [5, 9]⟩] }, by constructor <;> decide, by constructor <;> decide,
    by constructor <;> decide, by decide, _, rfl⟩

/-- `DestinationsAreNeverLookedInto`, for every renaming. -/
theorem witness_rename_dest (f : Dest → Dest) : ∃ t, exec (.rx readFrame) reading = .next t ∧
    (t.mapDest f).outputs = [.wb (f dst0) [0x2A], .done true] := ⟨_, rfl, rfl⟩

theorem witness_written_back : ∃ t, reading.Inv ∧ exec (.rx readFrame) reading = .next t ∧
    t.outputs = reading.outputs ++ [.wb dst0 [0x2A], .done true] := ⟨_, reading_inv, rfl, by decide⟩

end Sys2Proof.Tests
end

section
/-! The statements about the state (10_state.md): the invariants of R21, the hidden state of R22, the link flag of R11, the
control states of R20 and the outputs of R26 and R27. -/

namespace Sys2Proof.Machine

/-! ## Steps

One step is a wait or one instruction with its record gone (R36, log 1). -/

theorem step_next {s t : State} (h : step s = .next t) :
    (s.input = [] ∧ t = s) ∨ ∃ r rest i, s.input = r :: rest ∧ decode r = .ok i ∧ exec i { s with input := rest } = .next t := by
  unfold step at h
  split at h
  next hs => exact .inl ⟨hs, by injection h with h; exact h.symm⟩
  next r rest hs =>
    split at h
    next i hi => exact .inr ⟨r, rest, i, hs, hi, h⟩
    next e _ => cases h

theorem step_of_input_nil {s : State} (hs : s.input = []) : step s = .next s := by
  simp only [step, hs]

theorem step_of_decode {s : State} {r : Record} {rest : List Record} {i : Instr} (hs : s.input = r :: rest)
    (hi : decode r = .ok i) : step s = exec i { s with input := rest } := by
  simp only [step, hs, hi]

/-! ## The invariants of R21

`State.Inv` says nothing of the records presented, the outputs and the results, and each update of the state keeps it. -/

theorem reset_inv : State.reset.Inv where
  cap_ge := Nat.le_add_left 13 Config.bufCapExtra
  count_le := Nat.zero_le _
  pend_busy := by simp [State.reset]
  busy_open := by simp [State.reset]
  len_write := by simp [State.reset]
  len_read := by simp [State.reset]
  written := by simp [State.reset]
  canonical := List.Pairwise.nil
  bounded := by simp [State.reset]

namespace State.Inv

variable {s : State}

theorem with_input (h : s.Inv) (rs : List Record) : ({ s with input := rs } : State).Inv := { h with }

theorem emit (h : s.Inv) (os : List Output) : (emit os s).Inv := { h with }

theorem giveResult (h : s.Inv) (r : FnResult) : (giveResult r s).Inv := { h with }

theorem open_link (h : s.Inv) : (setLink true s).Inv := { h with busy_open := fun _ => rfl }

/-- Disarmed, a state owes nothing to `link_open`: this is why closing the link has to disarm too. -/
theorem disarm_setLink (h : s.Inv) (up : Bool) : (disarm (setLink up s)).Inv where
  cap_ge := h.cap_ge
  count_le := Nat.zero_le _
  pend_busy := by simp
  busy_open := by simp
  len_write := by simp
  len_read := by simp
  written := by simp
  canonical := h.canonical
  bounded := h.bounded

theorem armRead (h : s.Inv) (hl : s.linkOpen = true) (c : Word) (d : Dest) : (armRead c d s).Inv :=
  { h with
    pend_busy := fun _ => rfl
    busy_open := fun _ => hl
    len_write := by simp
    len_read := by simp }

theorem armWrite (h : s.Inv) (hl : s.linkOpen = true) : (armWrite s).Inv :=
  { h with
    pend_busy := fun _ => rfl
    busy_open := fun _ => hl
    len_write := by simp
    len_read := by simp }

end State.Inv

theorem exec_inv {s t : State} {i : Instr} (hs : s.Inv) (h : exec i s = .next t) : t.Inv := by
  cases exec_effect h with
  | arrive ch _ _ _ hr => exact receive_inv hs hr
  | cancel _ _ _ ht => exact ht ▸ hs.disarm_setLink false
  | link _ ht => exact ht ▸ hs.open_link
  | unavailable _ _ _ _ ht => exact ht ▸ hs.emit _
  | busy _ _ _ _ _ ht => exact ht ▸ hs.emit _
  | armRead a c d _ _ _ hl _ ht => exact ht ▸ (hs.armRead hl c d).emit _
  | armWrite a w _ _ _ hl _ ht => exact ht ▸ (hs.armWrite hl).emit _
  | result r _ _ _ ht => exact ht ▸ hs.giveResult r

/-- Settles O7: a step is a wait or an instruction, and every effect of an instruction keeps the invariants. -/
theorem everyStepKeepsTheInvariant : Obligations.EveryStepKeepsTheInvariant := by
  intro s t hs h
  obtain ⟨-, rfl⟩ | ⟨_, rest, _, -, -, hx⟩ := step_next h
  · exact hs
  · exact exec_inv (hs.with_input rest) hx

/-- Settles O6: with `busy` and `rx_count` 0 and nothing written, the invariants hold for every capacity R5 allows. -/
theorem resetStateMeetsTheInvariant : Obligations.ResetStateMeetsTheInvariant :=
  ⟨rfl, rfl, rfl, rfl, rfl, reset_inv⟩

/-! ## The hidden state of R22

Each update takes two states that agree on what can be observed to two such states. -/

namespace State.SameObservable

variable {s t : State}

theorem with_input (h : s.SameObservable t) (rs : List Record) :
    ({ s with input := rs } : State).SameObservable { t with input := rs } := { h with input := rfl }

theorem emit (h : s.SameObservable t) (os : List Output) : (emit os s).SameObservable (emit os t) :=
  { h with outputs := congrArg (· ++ os) h.outputs }

theorem giveResult (h : s.SameObservable t) (r : FnResult) : (giveResult r s).SameObservable (giveResult r t) :=
  { h with results := congrArg (· ++ [r]) h.results }

theorem setLink (h : s.SameObservable t) (up : Bool) : (setLink up s).SameObservable (setLink up t) :=
  { h with linkOpen := rfl }

/-- Disarming hides the length, the descriptor and every byte of the buffer. -/
theorem disarm (h : s.SameObservable t) : (disarm s).SameObservable (disarm t) :=
  { h with
    busy := rfl
    rxCount := rfl
    pendValid := rfl
    expLen := by simp
    pendDest := by simp
    pendCount := by simp
    bytes := by simp }

/-- Arming writes what it makes observable. -/
theorem armRead (h : s.SameObservable t) (c : Word) (d : Dest) : (armRead c d s).SameObservable (armRead c d t) :=
  { h with
    busy := rfl
    pendValid := rfl
    expLen := fun _ => rfl
    pendDest := fun _ => rfl
    pendCount := fun _ => rfl }

theorem armWrite (h : s.SameObservable t) : (armWrite s).SameObservable (armWrite t) :=
  { h with
    busy := rfl
    pendValid := rfl
    expLen := fun _ => rfl
    pendDest := by simp
    pendCount := by simp }

theorem storedCount_eq (h : s.SameObservable t) (ch : List Byte) : storedCount ch s = storedCount ch t := by
  simp only [storedCount, h.bufCap, h.rxCount]

/-- The bytes the copy phase makes observable are those of the chunk. -/
theorem copyChunk (h : s.SameObservable t) (ch : List Byte) : (copyChunk ch s).SameObservable (copyChunk ch t) :=
  { h with
    rxCount := by simp [h.rxCount, h.storedCount_eq]
    bytes := by
      intro a ha
      have hk := h.storedCount_eq ch
      have hc := h.rxCount
      simp only [copyChunk_rxCount] at ha
      rw [copyChunk_read, copyChunk_read, ← hk, ← hc]
      split_ifs
      · rfl
      · exact h.bytes a (by omega) }

theorem kindInFlight_eq (h : s.SameObservable t) : kindInFlight s = kindInFlight t := by
  simp only [kindInFlight, h.pendValid]

theorem countInFlight_eq (h : s.SameObservable t) : countInFlight s = countInFlight t := by
  unfold countInFlight
  rw [← h.pendValid]
  split_ifs with hp
  · exact h.pendCount hp
  · rfl

theorem completionOutputs_eq (h : s.SameObservable t) (r : DecResult) : completionOutputs s r = completionOutputs t r := by
  cases r with
  | checksumMismatch => rfl
  | decoded c a v =>
    simp only [completionOutputs, ← h.pendValid]
    split_ifs with hp
    · rw [h.pendDest hp.1]
    · rfl

theorem holds (h : s.SameObservable t) {bs : List Byte} (hs : s.Holds bs) : t.Holds bs := by
  obtain ⟨hl, hb⟩ := hs
  refine ⟨hl.trans h.rxCount, fun i hi => ?_⟩
  rw [← h.rxCount] at hi
  rw [← h.bytes i hi, hb i hi]

/-- Whether a chunk completes the frame in flight is observable: `exp_len` is asked for only while `busy`. -/
theorem completes_iff (h : s.SameObservable t) (ch : List Byte) :
    (s.busy = true ∧ s.expLen ≤ s.rxCount + storedCount ch s) ↔ (t.busy = true ∧ t.expLen ≤ t.rxCount + storedCount ch t) := by
  rw [← h.busy, ← h.rxCount, ← h.storedCount_eq ch]
  exact and_congr_right fun hb => by rw [h.expLen hb]

end State.SameObservable

/-- Two outcomes that go on alike, as far as can be observed. -/
def GoesOnAlike (o o' : Host.Outcome State Fault Refusal) : Prop :=
  ∀ s', o = .next s' → ∃ t', o' = .next t' ∧ s'.SameObservable t'

theorem goesOnAlike_next {s t : State} (h : s.SameObservable t) : GoesOnAlike (.next s) (.next t) := by
  intro s' hs
  injection hs with hs
  exact ⟨t, rfl, hs ▸ h⟩

/-- A completion hands `DEC_RESP` only bytes below `rx_count`, so both states complete with the same result. -/
theorem receive_goesOnAlike {s t : State} (hs : s.Inv) (ht : t.Inv) (h : s.SameObservable t) (ch : List Byte) :
    GoesOnAlike (receive ch s) (receive ch t) := by
  obtain ⟨bs, hb⟩ := exists_holds hs
  obtain ⟨hn, he⟩ | ⟨hbusy, hlen, r, hr, he⟩ := receive_cases hs ch hb <;>
    obtain ⟨hn', he'⟩ | ⟨hbusy', hlen', r', hr', he'⟩ := receive_cases ht ch (h.holds hb)
  · rw [he, he']
    exact goesOnAlike_next (h.copyChunk ch)
  · exact absurd ((h.completes_iff ch).mpr ⟨hbusy', hlen'⟩) hn
  · exact absurd ((h.completes_iff ch).mp ⟨hbusy, hlen⟩) hn'
  · rw [← h.kindInFlight_eq, ← h.countInFlight_eq, ← h.expLen hbusy, hr] at hr'
    injection hr' with hr'
    rw [he, he', ← hr', ← h.completionOutputs_eq]
    exact goesOnAlike_next ((h.copyChunk ch).disarm.emit _)

theorem issue_goesOnAlike {s t : State} {f : State → State} (h : s.SameObservable t) (hf : (f s).SameObservable (f t)) :
    GoesOnAlike (issue f s) (issue f t) := by
  simp only [issue, ← h.linkOpen, ← h.busy]
  split_ifs
  · exact goesOnAlike_next (h.emit _)
  · exact goesOnAlike_next hf
  · exact goesOnAlike_next (h.emit _)

theorem issueRead_goesOnAlike {s t : State} (h : s.SameObservable t) (a : Addr) (c : Word) (d : Dest) :
    GoesOnAlike (issueRead a c d s) (issueRead a c d t) :=
  issue_goesOnAlike (f := fun s => emit [.tx (encodeRead a c)] (armRead c d s)) h ((h.armRead c d).emit _)

theorem issueWrite_goesOnAlike {s t : State} (h : s.SameObservable t) (a : Addr) (w : Word) :
    GoesOnAlike (issueWrite a w s) (issueWrite a w t) :=
  issue_goesOnAlike (f := fun s => emit [.tx (encodeWrite a w)] (armWrite s)) h (h.armWrite.emit _)

theorem exec_goesOnAlike {s t : State} (hs : s.Inv) (ht : t.Inv) (h : s.SameObservable t) (i : Instr) :
    GoesOnAlike (exec i s) (exec i t) := by
  cases i with
  | rdReq _ _ => exact issueRead_goesOnAlike h _ _ _
  | wrReq _ _ => exact issueWrite_goesOnAlike h _ _
  | wrResp _ => exact receive_goesOnAlike hs ht h _
  | rdResp _ _ _ => exact receive_goesOnAlike hs ht h _
  | reset => exact goesOnAlike_next (h.setLink false).disarm
  | openLink => exact goesOnAlike_next (h.setLink true)
  | closeLink => exact goesOnAlike_next (h.setLink false).disarm
  | issueRd _ _ _ => exact issueRead_goesOnAlike h _ _ _
  | issueWr _ _ => exact issueWrite_goesOnAlike h _ _
  | rx _ => exact receive_goesOnAlike hs ht h _
  | cksum _ => exact goesOnAlike_next (h.giveResult _)
  | encRd _ _ => exact goesOnAlike_next (h.giveResult _)
  | encWr _ _ => exact goesOnAlike_next (h.giveResult _)
  | expLen _ _ => exact goesOnAlike_next (h.giveResult _)
  | decResp _ _ _ =>
    simp only [exec, execDecResp]
    split
    · exact goesOnAlike_next (h.giveResult _)
    · exact fun _ hn => nomatch hn

/-- Settles O42: both states wait, or both run the instruction of the same record. -/
theorem hiddenStateIsNeverObserved : Obligations.HiddenStateIsNeverObserved := by
  intro s t s' hs ht h hx
  obtain ⟨hi, rfl⟩ | ⟨r, rest, i, hi, hd, hx⟩ := step_next hx
  · exact ⟨t, step_of_input_nil (h.input ▸ hi), h⟩
  · rw [step_of_decode (h.input ▸ hi) hd]
    exact exec_goesOnAlike (hs.with_input rest) (ht.with_input rest) (h.with_input rest) i s' hx

/-! ## The link flag (R11, R88) -/

theorem receive_with_link (ch : List Byte) (s : State) (up : Bool) :
    receive ch { s with linkOpen := up } = mapNext (fun t => { t with linkOpen := up }) (receive ch s) :=
  complete_with_link (copyChunk ch s) up

/-- Settles O16: arriving bytes leave the other value of `link_open` standing, `RESET`, `OPEN` and `CLOSE` write it, and the
functions touch the result port only. -/
theorem onlyIssuesLookAtTheLink : Obligations.OnlyIssuesLookAtTheLink := by
  intro s t i up hi h
  cases hb : bytesArriving i with
  | some ch =>
    rw [exec_arriving hb] at h
    exact ⟨{ t with linkOpen := up }, by rw [exec_arriving hb, receive_with_link, h]; rfl, rfl⟩
  | none =>
    cases i with
    | rdReq | wrReq | issueRd | issueWr => cases hi
    | wrResp | rdResp | rx => cases hb
    | reset | openLink | closeLink | cksum | encRd | encWr | expLen =>
      injection h with h
      exact ⟨_, rfl, h ▸ rfl⟩
    | decResp =>
      simp only [exec, execDecResp] at h ⊢
      split at h
      · injection h with h
        exact ⟨_, rfl, h ▸ rfl⟩
      · cases h

/-! ## The control states (R20) -/

theorem controlState_closed_iff (s : State) : controlState s = .closed ↔ s.linkOpen = false := by
  cases hl : s.linkOpen <;> cases hb : s.busy <;> simp [controlState, hl, hb]

theorem controlState_idle_iff (s : State) : controlState s = .idle ↔ s.linkOpen = true ∧ s.busy = false := by
  cases hl : s.linkOpen <;> cases hb : s.busy <;> simp [controlState, hl, hb]

theorem controlState_wait_iff (s : State) : controlState s = .wait ↔ s.linkOpen = true ∧ s.busy = true := by
  cases hl : s.linkOpen <;> cases hb : s.busy <;> simp [controlState, hl, hb]

section
variable {s t : State} {i : Instr}

theorem receive_linkOpen {ch : List Byte} (h : receive ch s = .next t) : t.linkOpen = s.linkOpen := by
  obtain ⟨-, rfl⟩ | ⟨-, -, r, rfl⟩ := receive_next h <;> rfl

theorem cancel_linkOpen (h : exec i s = .next t) (hc : Cancels i) : t.linkOpen = false := by
  rcases hc with rfl | rfl <;> injection h with h <;> subst h <;> rfl

/-- What an instruction does to `link_open`: `OPEN` sets it, `RESET` and `CLOSE` clear it, nothing else writes it (R11). -/
theorem exec_linkOpen (h : exec i s = .next t) :
    (i = .openLink ∧ t = setLink true s) ∨ (Cancels i ∧ t.linkOpen = false) ∨ t.linkOpen = s.linkOpen := by
  cases exec_effect h with
  | arrive ch _ _ _ hr => exact .inr (.inr (receive_linkOpen hr))
  | cancel _ _ hc _ => exact .inr (.inl ⟨hc, cancel_linkOpen h hc⟩)
  | link hi ht => exact .inl ⟨hi, ht⟩
  | unavailable _ _ _ _ ht => exact .inr (.inr (ht ▸ rfl))
  | busy _ _ _ _ _ ht => exact .inr (.inr (ht ▸ rfl))
  | armRead _ _ _ _ _ _ _ _ ht => exact .inr (.inr (ht ▸ rfl))
  | armWrite _ _ _ _ _ _ _ ht => exact .inr (.inr (ht ▸ rfl))
  | result _ _ _ _ ht => exact .inr (.inr (ht ▸ rfl))

/-- Bytes arrive that complete the frame in flight, and the last output says so (R82, R80). -/
def Completes (i : Instr) (s t : State) : Prop :=
  ∃ ch os ok, bytesArriving i = some ch ∧ s.expLen ≤ s.rxCount + min ch.length (s.bufCap - s.rxCount) ∧
    t.outputs = s.outputs ++ os ++ [.done ok]

/-- What an instruction does to `busy`: an `ISSUE` sets it, `RESET`, `CLOSE` and a completion clear it, nothing else writes it
(R12). -/
theorem exec_busy (h : exec i s = .next t) :
    (isIssue i = true ∧ t.busy = true) ∨ (Cancels i ∧ t.busy = false) ∨ (Completes i s t ∧ t.busy = false) ∨
      t.busy = s.busy := by
  cases exec_effect h with
  | arrive ch hb _ _ hr =>
    obtain ⟨-, rfl⟩ | ⟨-, hl, r, rfl⟩ := receive_next hr
    · exact .inr (.inr (.inr rfl))
    · obtain ⟨os, ok, ho⟩ := completionOutputs_done s r
      exact .inr (.inr (.inl ⟨⟨ch, os, ok, hb, hl, by simp [ho]⟩, rfl⟩))
  | cancel _ _ hc ht => exact .inr (.inl ⟨hc, ht ▸ rfl⟩)
  | link _ ht => exact .inr (.inr (.inr (ht ▸ rfl)))
  | unavailable _ _ _ _ ht => exact .inr (.inr (.inr (ht ▸ rfl)))
  | busy _ _ _ _ _ ht => exact .inr (.inr (.inr (ht ▸ rfl)))
  | armRead _ _ _ _ hi _ _ _ ht => exact .inl ⟨hi, ht ▸ rfl⟩
  | armWrite _ _ _ hi _ _ _ ht => exact .inl ⟨hi, ht ▸ rfl⟩
  | result _ _ _ _ ht => exact .inr (.inr (.inr (ht ▸ rfl)))

/-- A closed block has nothing in flight (R21, invariants 2 and 3). -/
theorem State.Inv.disarmed_of_closed (hs : s.Inv) (hl : s.linkOpen = false) : s.busy = false ∧ s.pendValid = false := by
  have hb : s.busy = false := by simpa [hl] using hs.busy_open
  exact ⟨hb, by simpa [hb] using hs.pend_busy⟩

theorem leaves_closed (hs : s.Inv) (h : exec i s = .next t) (hl : s.linkOpen = false) (hl' : t.linkOpen = true) :
    i = .openLink ∧ t.busy = false := by
  obtain ⟨hi, rfl⟩ | ⟨-, hf⟩ | he := exec_linkOpen h
  · exact ⟨hi, (hs.disarmed_of_closed hl).1⟩
  · simp [hl'] at hf
  · simp [hl, hl'] at he

theorem closes_only_by_cancel (h : exec i s = .next t) (hl : s.linkOpen = true) (hl' : t.linkOpen = false) : Cancels i := by
  obtain ⟨-, rfl⟩ | ⟨hc, -⟩ | he := exec_linkOpen h
  · cases hl'
  · exact hc
  · simp [hl, hl'] at he

theorem arms_only_by_issue (h : exec i s = .next t) (hb : s.busy = false) (hb' : t.busy = true) : isIssue i = true := by
  obtain ⟨hi, -⟩ | ⟨-, hf⟩ | ⟨-, hf⟩ | he := exec_busy h
  · exact hi
  · simp [hb'] at hf
  · simp [hb'] at hf
  · simp [hb, hb'] at he

theorem disarms_open_only_by_completion (h : exec i s = .next t) (hb : s.busy = true) (hb' : t.busy = false)
    (hl' : t.linkOpen = true) : Completes i s t := by
  obtain ⟨-, hf⟩ | ⟨hc, -⟩ | ⟨hc, -⟩ | he := exec_busy h
  · simp [hb'] at hf
  · simp [cancel_linkOpen h hc] at hl'
  · exact hc
  · simp [hb, hb'] at he

end

/-- Settles O40: the control states read as flags, each way out of one is what may write that flag. -/
theorem controlStateTransitions : Obligations.ControlStateTransitions := by
  intro s t i hs h
  simp only [ne_eq, controlState_closed_iff, controlState_idle_iff, controlState_wait_iff, Bool.not_eq_false]
  refine ⟨hs.disarmed_of_closed, fun hl hl' => ?_, ?_, ?_, ?_, ?_, cancel_linkOpen h⟩
  · obtain ⟨hi, hb⟩ := leaves_closed hs h hl hl'
    exact ⟨hi, hl', hb⟩
  · exact fun ⟨_, hb⟩ ⟨_, hb'⟩ => arms_only_by_issue h hb hb'
  · exact fun ⟨hl, _⟩ hl' => closes_only_by_cancel h hl hl'
  · exact fun ⟨hl, _⟩ hl' => closes_only_by_cancel h hl hl'
  · exact fun ⟨_, hb⟩ ⟨hl', hb'⟩ => disarms_open_only_by_completion h hb hb' hl'

/-! ## The outputs (R26, R27) -/

/-- `DEC_RESP` yields values only for a read, and then one for each of its count (R65, R70). -/
theorem decodeResponse_values_length {k : Kind} {c : Word} {b : List Byte} {ctl : BitVec 4} {a : Addr} {v : List Word}
    (h : decodeResponse k c b = some (.decoded ctl a v)) (hv : v ≠ []) : v.length = max c.toNat 1 := by
  have hl : b.length = expectedLen k c := (decodeResponse_isSome k c b).mp (by rw [h]; rfl)
  cases k with
  | wr =>
    rw [decodeResponse_wr c b hl] at h
    split_ifs at h
    · cases h
      exact absurd rfl hv
    · cases h
  | rd =>
    rw [expectedLen_rd] at hl
    rw [decodeResponse_rd c b _ rfl hl] at h
    split_ifs at h
    · cases h
      have hn := valuesOf_length b _ hl
      split_ifs at hn
      · exact hn
      · exact absurd (List.eq_nil_of_length_eq_zero hn) hv
    · cases h

/-- What arriving bytes can make the block output in state `s` (R80, R81). -/
def ArrivalOutputs (s : State) (os : List Output) : Prop :=
  os = [] ∨ (∃ ok, os = [.done ok]) ∨ ∃ v, os = [.wb s.pendDest v, .done true] ∧
    s.pendValid = true ∧ v.length = max s.pendCount.toNat 1

theorem completionOutputs_arrival {s : State} {r : DecResult} {b : List Byte}
    (h : decodeResponse (kindInFlight s) (countInFlight s) b = some r) : ArrivalOutputs s (completionOutputs s r) := by
  cases r with
  | checksumMismatch => exact .inr (.inl ⟨false, rfl⟩)
  | decoded ctl a v =>
    simp only [completionOutputs]
    split_ifs with hv
    · obtain ⟨hp, hv⟩ := hv
      have hn := decodeResponse_values_length h hv
      rw [countInFlight, if_pos hp] at hn
      exact .inr (.inr ⟨v, rfl, hp, hn⟩)
    · exact .inr (.inl ⟨true, rfl⟩)

theorem receive_outputs {s t : State} (hs : s.Inv) {ch : List Byte} (h : receive ch s = .next t) :
    ∃ os, t.outputs = s.outputs ++ os ∧ ArrivalOutputs s os := by
  obtain ⟨bs, hb⟩ := exists_holds hs
  obtain ⟨-, he⟩ | ⟨-, -, r, hr, he⟩ := receive_cases hs ch hb <;> rw [he] at h <;> injection h with h <;> subst h
  · exact ⟨[], (List.append_nil _).symm, .inl rfl⟩
  · exact ⟨_, rfl, completionOutputs_arrival hr⟩

theorem ArrivalOutputs.possible {s : State} {os : List Output} (h : ArrivalOutputs s os) : PossibleOutputs os := by
  obtain rfl | ⟨ok, rfl⟩ | ⟨v, rfl, -, hn⟩ := h
  · exact .inl rfl
  · exact .inr (.inr (.inr (.inr (.inl ⟨ok, rfl⟩))))
  · have hv : v ≠ [] := List.ne_nil_of_length_pos (by omega)
    exact .inr (.inr (.inr (.inr (.inr ⟨s.pendDest, v, hv, rfl⟩))))

/-- Settles O43, effect by effect: in each, the event and the flags say which of the clauses are not empty. -/
theorem outputsOfEachEvent : Obligations.OutputsOfEachEvent := by
  intro s t i hs h
  cases exec_effect h with
  | arrive ch hb hi _ hr =>
    obtain ⟨os, ho, ha⟩ := receive_outputs hs hr
    exact ⟨os, ho, ha.possible, by simp [hb], by simp [hi], by simp [hi], by simp [hi], fun _ => ha⟩
  | cancel hb hi _ ht =>
    exact ⟨[], by simp [ht], .inl rfl, by simp [hb, hi]⟩
  | link he ht =>
    subst he
    exact ⟨[], by simp [ht], .inl rfl, by simp [isIssue, bytesArriving]⟩
  | unavailable hb hi _ hl ht =>
    exact ⟨[.reject .transportUnavailable], by simp [ht], .inr (.inr (.inl rfl)), by simp [hb, hi, hl]⟩
  | busy hb hi _ hl hbusy ht =>
    exact ⟨[.reject .busy], by simp [ht], .inr (.inr (.inr (.inl rfl))), by simp [hb, hi, hl, hbusy]⟩
  | armRead a c d hb hi _ hl hbusy ht =>
    exact ⟨[.tx (encodeRead a c)], by simp [ht], .inr (.inl ⟨_, rfl, rfl⟩), by simp [hb, hi, hl, hbusy]⟩
  | armWrite a w hb hi _ hl hbusy ht =>
    exact ⟨[.tx (encodeWrite a w)], by simp [ht], .inr (.inl ⟨_, rfl, rfl⟩), by simp [hb, hi, hl, hbusy]⟩
  | result r hb hi _ ht =>
    exact ⟨[], by simp [ht], .inl rfl, by simp [hb, hi]⟩

end Sys2Proof.Machine
end

section
/-! The statements about the memory family (20_memory.md): one step and a run of events (R36), that nothing stops the block
(R41), the words written back (R31, R34) and the destinations (R30). -/

namespace Sys2Proof.Machine

/-! ## Every well-formed instruction goes on (R41, R80) -/

theorem issue_total (f : State → State) (s : State) : ∃ t, issue f s = .next t := by
  obtain ⟨-, he⟩ | ⟨-, -, he⟩ | ⟨-, -, he⟩ := issue_cases f s <;> exact ⟨_, he⟩

theorem issueRead_total (a : Addr) (c : Word) (d : Dest) (s : State) : ∃ t, issueRead a c d s = .next t :=
  issue_total (fun s => emit [.tx (encodeRead a c)] (armRead c d s)) s

theorem issueWrite_total (a : Addr) (w : Word) (s : State) : ∃ t, issueWrite a w s = .next t :=
  issue_total (fun s => emit [.tx (encodeWrite a w)] (armWrite s)) s

theorem execDecResp_total {k : Kind} {c : Word} {b : List Byte} (h : b.length = expectedLen k c) (s : State) :
    ∃ t, execDecResp k c b s = .next t := by
  obtain ⟨r, hr⟩ := Option.isSome_iff_exists.mp ((decodeResponse_isSome k c b).mpr h)
  exact ⟨giveResult (.response r) s, by simp only [execDecResp, hr]⟩

/-- Of all rows only the arriving bytes need the invariants, and only `DEC_RESP` needs its operands well formed. -/
theorem exec_total {s : State} {i : Instr} (hs : s.Inv) (hi : WellFormed i) : ∃ t, exec i s = .next t := by
  cases i with
  | wrResp | rdResp | rx => exact receive_total hs _
  | rdReq | issueRd => exact issueRead_total _ _ _ s
  | wrReq | issueWr => exact issueWrite_total _ _ s
  | decResp => exact execDecResp_total (of_decide_eq_true hi) s
  | reset | openLink | closeLink | cksum | encRd | encWr | expLen => exact ⟨_, rfl⟩

/-- Settles O8: the instruction answers a next state, and what answers a next state keeps the invariants. -/
theorem everyWellFormedInstructionCompletes : Obligations.EveryWellFormedInstructionCompletes := by
  intro s i hs hi
  obtain ⟨t, ht⟩ := exec_total hs hi
  exact ⟨t, ht, exec_inv hs ht⟩

/-! ## One step (R36, R54) -/

theorem step_of_undecodable {s : State} {r : Record} {rest : List Record} {e : DecodeError} (hs : s.input = r :: rest)
    (he : decode r = .error e) : step s = .refused (.undecodable e) := by
  simp only [step, hs, he]

/-- Settles O1: the three branches of `step`. -/
theorem stepRunsTheDecodedInstruction : Obligations.StepRunsTheDecodedInstruction :=
  fun _ => ⟨fun _ _ _ => step_of_decode, fun _ _ _ => step_of_undecodable, step_of_input_nil⟩

theorem decode_tableRecord {nbits w : Nat} {i : Instr} (h : decodeTableWord nbits w = some i) :
    decode (tableRecord nbits w) = .ok i := by
  unfold decodeTableWord at h
  split at h
  next j hj => rw [hj, Option.some.inj h]
  next => cases h

/-- Settles O2: the word's record is the oldest, and with it gone the state is the one before. -/
theorem presentedTableWordRunsNext : Obligations.PresentedTableWordRunsNext :=
  fun s _ _ _ h => step_of_decode (rest := s.input) rfl (decode_tableRecord h)

/-! ## Runs (R36) -/

theorem decode_encode {i : Instr} (h : WellFormed i) : decode (encode i) = .ok i := by
  cases i with
  | rdReq addr read => exact Laws.RoundTrip.rdReq addr read h
  | wrReq addr value => exact Laws.RoundTrip.wrReq addr value h
  | wrResp p => exact Laws.RoundTrip.wrResp p h
  | rdResp echo values ck => exact Laws.RoundTrip.rdResp echo values ck h
  | reset => exact Laws.RoundTrip.reset h
  | openLink => exact Laws.RoundTrip.openLink h
  | closeLink => exact Laws.RoundTrip.closeLink h
  | issueRd addr count dest => exact Laws.RoundTrip.issueRd addr count dest h
  | issueWr addr value => exact Laws.RoundTrip.issueWr addr value h
  | rx chunk => exact Laws.RoundTrip.rx chunk h
  | cksum bytes => exact Laws.RoundTrip.cksum bytes h
  | encRd addr count => exact Laws.RoundTrip.encRd addr count h
  | encWr addr value => exact Laws.RoundTrip.encWr addr value h
  | expLen kind count => exact Laws.RoundTrip.expLen kind count h
  | decResp kind count bytes => exact Laws.RoundTrip.decResp kind count bytes h

/-- An outcome, and what is done from its next state: one link of the fold that a run is. -/
def andThen (o : Host.Outcome State Fault Refusal) (k : State → Host.Outcome State Fault Refusal) :
    Host.Outcome State Fault Refusal :=
  match o with
  | .next t => k t
  | .fault f => .fault f
  | .refused r => .refused r

theorem run_succ (n : Nat) (s : State) : Host.Core.run core (n + 1) s = andThen (step s) (Host.Core.run core n) := by
  have hc : core.step s = step s := rfl
  simp only [Host.Core.run, hc]
  cases step s <;> rfl

theorem execAll_cons_eq (i : Instr) (is : List Instr) (s : State) :
    execAll (i :: is) s = andThen (exec i s) (execAll is) := rfl

theorem andThen_mapNext (o : Host.Outcome State Fault Refusal) (f : State → State)
    (k : State → Host.Outcome State Fault Refusal) : andThen (mapNext f o) k = andThen o (fun t => k (f t)) := by
  cases o <;> rfl

theorem andThen_congr {o : Host.Outcome State Fault Refusal} {k k' : State → Host.Outcome State Fault Refusal}
    (h : ∀ t, o = .next t → k t = k' t) : andThen o k = andThen o k' := by
  cases o with
  | next t => exact h t rfl
  | fault | refused => rfl

/-- No instruction presents a record or takes one. -/
theorem exec_input {i : Instr} {s t : State} (h : exec i s = .next t) : t.input = s.input := by
  have hm := exec_with_input i s s.input
  rw [show exec i { s with input := s.input } = exec i s from rfl, h] at hm
  injection hm with hm
  rw [hm]

/-- Settles O9, by induction on the instructions: the step runs the first one with its record gone, the rest of the records
stay presented, and no instruction looks at them. -/
theorem runsAreFoldsOfEvents : Obligations.RunsAreFoldsOfEvents := by
  intro is rest s hw hin
  induction is generalizing s with
  | nil => rw [show rest = s.input from hin.symm]; rfl
  | cons i is ih =>
    have hstep : step s = exec i { s with input := is.map encode ++ rest } :=
      step_of_decode hin (decode_encode (hw i List.mem_cons_self))
    have hfold : exec i { s with input := rest } =
        mapNext (fun t => { t with input := rest }) (exec i { s with input := is.map encode ++ rest }) :=
      exec_with_input i { s with input := is.map encode ++ rest } rest
    rw [List.length_cons, run_succ, execAll_cons_eq, hstep, hfold, andThen_mapNext]
    exact andThen_congr fun t ht => ih t (fun j hj => hw j (List.mem_cons_of_mem i hj)) (exec_input ht)

/-! ## The words written back (R31, R34) -/

/-- `MemRead(a, 4)` of a buffer that holds `b` from offset 0 (R7). -/
theorem memRead_four {m : Memory} {b : List Byte} {a : Nat} (hm : ∀ k, k < b.length → m.read k = b[k]?)
    (ha : a + 4 ≤ b.length) : m.memRead a 4 = some ((b.getD a 0).toNat + 256 * (b.getD (a + 1) 0).toNat +
      65536 * (b.getD (a + 2) 0).toNat + 16777216 * (b.getD (a + 3) 0).toNat) := by
  have hr : ∀ k, k < b.length → m.read k = some (b.getD k 0) := fun k hk => by
    rw [hm k hk, List.getD_eq_getElem?_getD, List.getElem?_eq_getElem hk, Option.getD_some]
  simp only [Memory.memRead, Nat.add_assoc, Nat.reduceAdd, hr a (by omega), hr (a + 1) (by omega), hr (a + 2) (by omega),
    hr (a + 3) (by omega), Option.some.injEq]
  omega

theorem copyChunk_read_of_holds {s : State} {bs : List Byte} (h : s.Holds bs) (ch : List Byte) {k : Nat}
    (hk : k < s.rxCount + storedCount ch s) : (copyChunk ch s).buf.read k = (bs ++ ch)[k]? := by
  obtain ⟨hl, hb⟩ := h
  rw [copyChunk_read]
  split_ifs with hc
  · rw [List.getElem?_append_right (by omega), hl]
  · rw [hb k (by omega), List.getElem?_append_left (by omega)]

/-- Only arriving bytes are written back (R27, R34). -/
theorem writeBack_arrives {s t : State} {i : Instr} {d : Dest} {v : List Word} (h : exec i s = .next t)
    (ho : t.outputs = s.outputs ++ [.wb d v, .done true]) : ∃ ch, receive ch s = .next t := by
  cases exec_effect h with
  | arrive ch _ _ _ hr => exact ⟨ch, hr⟩
  | cancel _ _ _ ht | link _ ht | unavailable _ _ _ _ ht | busy _ _ _ _ _ ht | armRead _ _ _ _ _ _ _ _ ht
  | armWrite _ _ _ _ _ _ _ ht | result _ _ _ _ ht => simp [ht] at ho

/-- A write-back goes to the recorded destination, and there are values, of a read (R80, R81). -/
theorem completionOutputs_writeBack {s : State} {r : DecResult} {d : Dest} {v : List Word}
    (h : completionOutputs s r = [.wb d v, .done true]) :
    s.pendValid = true ∧ d = s.pendDest ∧ v ≠ [] ∧ ∃ c a, r = .decoded c a v := by
  cases r with
  | checksumMismatch => cases h
  | decoded c a w =>
    simp only [completionOutputs] at h
    split_ifs at h with hw
    · cases h
      exact ⟨hw.1, rfl, hw.2, c, a, rfl⟩
    · cases h

/-- Value `j` that `DEC_RESP` gives of a read is the word of the buffer at `8 + 4j` (R70, R31). -/
theorem decodeResponse_value_memRead {c : Word} {b : List Byte} {ctl : BitVec 4} {a : Addr} {v : List Word} {m : Memory}
    (h : decodeResponse .rd c b = some (.decoded ctl a v)) (hm : ∀ k, k < b.length → m.read k = b[k]?) {j : Nat}
    (hj : j < v.length) : m.memRead (8 + 4 * j) 4 = some (v.getD j 0).toNat := by
  have hl : b.length = expectedLen .rd c := (decodeResponse_isSome .rd c b).mp (by rw [h]; rfl)
  rw [expectedLen_rd] at hl
  rw [decodeResponse_rd c b _ rfl hl] at h
  split_ifs at h
  · cases h
    have hn := valuesOf_length b _ hl
    split_ifs at hn with hc
    · rw [hn] at hj
      rw [memRead_four hm (by omega), valuesOf_getD b _ hl hc j hj]
      simp only [Nat.add_right_comm 8 (4 * j), Nat.reduceAdd]
    · omega
  · cases h

/-- Settles O44: the values come from the bytes held, which stand in the buffer from offset 0 and which a completion leaves
there. -/
theorem writtenBackValuesAreBufferWords : Obligations.WrittenBackValuesAreBufferWords := by
  intro s t i d v hs h ho
  obtain ⟨ch, hr⟩ := writeBack_arrives h ho
  obtain ⟨bs, hb⟩ := exists_holds hs
  obtain ⟨-, he⟩ | ⟨-, hlen, r, hd, he⟩ := receive_cases hs ch hb <;> rw [he] at hr <;> cases hr
  · simp at ho
  · obtain ⟨hp, rfl, -, c, a, rfl⟩ := completionOutputs_writeBack (List.append_cancel_left ho)
    rw [kindInFlight, if_pos hp] at hd
    refine ⟨rfl, fun j hj => decodeResponse_value_memRead hd (fun k hk => ?_) hj⟩
    have hk : k < s.expLen := lt_of_lt_of_le hk (List.length_take_le _ _)
    rw [List.getElem?_take_of_lt hk]
    exact copyChunk_read_of_holds hb ch (by omega)

/-! ## Destinations (R30) -/

theorem emit_mapDest (f : Dest → Dest) (os : List Output) (s : State) :
    (emit os s).mapDest f = emit (os.map (Output.mapDest f)) (s.mapDest f) := by
  simp only [emit, State.mapDest, List.map_append]

theorem receive_mapDest (f : Dest → Dest) (ch : List Byte) (s : State) :
    receive ch (s.mapDest f) = mapNext (State.mapDest f) (receive ch s) :=
  complete_mapDest f (copyChunk ch s)

/-- The tests of an `ISSUE` see no destination, so it is enough that its acceptance looks into none. -/
theorem issue_mapDest {f : Dest → Dest} {accept accept' : State → State} {s : State}
    (h : accept' (s.mapDest f) = (accept s).mapDest f) :
    issue accept' (s.mapDest f) = mapNext (State.mapDest f) (issue accept s) := by
  obtain ⟨hl, he⟩ | ⟨hl, hb, he⟩ | ⟨hl, hb, he⟩ := issue_cases accept s <;> rw [he, mapNext]
  · rw [raise, emit_mapDest]
    exact if_neg (by simp [State.mapDest, hl])
  · rw [raise, emit_mapDest]
    exact (if_pos hl).trans (if_pos hb)
  · rw [← h]
    exact (if_pos hl).trans (if_neg (by simp [State.mapDest, hb]))

theorem issueRead_mapDest (f : Dest → Dest) (a : Addr) (c : Word) (d : Dest) (s : State) :
    issueRead a c (f d) (s.mapDest f) = mapNext (State.mapDest f) (issueRead a c d s) :=
  issue_mapDest (emit_mapDest f [.tx (encodeRead a c)] (armRead c d s)).symm

theorem issueWrite_mapDest (f : Dest → Dest) (a : Addr) (w : Word) (s : State) :
    issueWrite a w (s.mapDest f) = mapNext (State.mapDest f) (issueWrite a w s) :=
  issue_mapDest (emit_mapDest f [.tx (encodeWrite a w)] (armWrite s)).symm

theorem exec_mapDest (f : Dest → Dest) (i : Instr) (s : State) :
    exec (renameDest f i) (s.mapDest f) = mapNext (State.mapDest f) (exec i s) := by
  cases i with
  | rdReq | issueRd => exact issueRead_mapDest f _ _ _ s
  | wrReq | issueWr => exact issueWrite_mapDest f _ _ s
  | wrResp | rdResp | rx => exact receive_mapDest f _ s
  | reset | openLink | closeLink | cksum | encRd | encWr | expLen => rfl
  | decResp =>
    simp only [renameDest, exec, execDecResp]
    split <;> rfl

/-- Settles O45: renaming before an instruction is renaming in its outcome. -/
theorem destinationsAreNeverLookedInto : Obligations.DestinationsAreNeverLookedInto := by
  intro f s t i h
  rw [exec_mapDest, h, mapNext]

end Sys2Proof.Machine
end

section
/-! The statements about the encoding (30_encoding.md): decode and encode agree (R43 to R51, R54), and what the four frames of
the wire do as instructions (R45 to R48). -/

namespace Sys2Proof.Machine

/-! ## Decode and encode (R43 to R51, R54) -/

/-- Settles O3: row by row, in `decode_encode`. -/
theorem decodeGivesBackTheEncoded : Obligations.DecodeGivesBackTheEncoded := fun _ => decode_encode

/-! The converse, port by port: what the decoder reads of a record is what the encoder writes. -/

theorem encode_of_decodeIssueRd {bs : List Byte} {i : Instr} (h : decodeIssueRd bs = .ok i) : encode i = ⟨.cmd, 3 :: bs⟩ := by
  match bs, h with
  | a0 :: a1 :: c0 :: c1 :: c2 :: c3 :: handle, h =>
    simp only [decodeIssueRd] at h
    split at h
    next dest hd =>
      cases h
      simp [encode, le16_unle16, le32_unle32, decodeDest_inv hd]
    next => cases h

theorem encode_of_decodeExpLen {bs : List Byte} {i : Instr} (h : decodeExpLen bs = .ok i) : encode i = ⟨.cmd, 11 :: bs⟩ := by
  match bs, h with
  | [k, c0, c1, c2, c3], h =>
    simp only [decodeExpLen] at h
    split at h
    next kind hk =>
      cases h
      simp [encode, le32_unle32, decodeKind_inv hk]
    next => cases h

theorem encode_of_decodeDecResp {bs : List Byte} {i : Instr} (h : decodeDecResp bs = .ok i) :
    encode i = ⟨.cmd, 12 :: bs⟩ := by
  match bs, h with
  | k :: c0 :: c1 :: c2 :: c3 :: bs, h =>
    simp only [decodeDecResp] at h
    split at h
    next kind hk =>
      cases h
      simp [encode, le32_unle32, decodeKind_inv hk]
    next => cases h

/-- The eleven `op` codes that select an operation (R54), each with the inversion of its operands. -/
theorem encode_of_decodeCmd {bs : List Byte} {i : Instr} (h : decodeCmd bs = .ok i) : encode i = ⟨.cmd, bs⟩ := by
  cases bs with
  | nil => cases h
  | cons op rest =>
    simp only [decodeCmd] at h
    split at h
    case h_1 hop | h_2 hop | h_3 hop =>
      obtain ⟨rfl, rfl⟩ := decodeNone_inv h
      rw [byte_eq_of_toNat hop]; rfl
    case h_4 hop => rw [byte_eq_of_toNat hop]; exact encode_of_decodeIssueRd h
    case h_5 hop | h_8 hop | h_9 hop =>
      obtain ⟨a, w, rfl, rfl⟩ := decodeAddrWord_inv h
      rw [byte_eq_of_toNat hop]; rfl
    case h_6 hop | h_7 hop => cases h; rw [byte_eq_of_toNat hop]; rfl
    case h_10 hop => rw [byte_eq_of_toNat hop]; exact encode_of_decodeExpLen h
    case h_11 hop => rw [byte_eq_of_toNat hop]; exact encode_of_decodeDecResp h
    case h_12 => cases h

theorem encode_of_decodeWriteResponse {bs : List Byte} {i : Instr} (h : decodeWriteResponse bs = .ok i) :
    encode i = ⟨.writeResponse, bs⟩ := by
  unfold decodeWriteResponse at h
  split at h
  next => cases h
  next p hp =>
    cases h
    rw [encode, packetBytes_of_decodePacket bs p hp]

/-- A read response taken apart into echo, values and trailing byte, and put together again (R48). -/
theorem encode_of_decodeReadResponse {bs : List Byte} {i : Instr} (h : decodeReadResponse bs = .ok i) :
    encode i = ⟨.readResponse, bs⟩ := by
  unfold decodeReadResponse at h
  split_ifs at h with hlen
  · split at h
    next p ck hp hck =>
      cases h
      have hdrop : (bs.drop 8).dropLast ++ [ck] = bs.drop 8 :=
        List.dropLast_append_getLast? ck (by rw [List.getLast?_drop, if_neg (by omega)]; exact hck)
      have hwords : bytesOf (wordsOf (bs.drop 8).dropLast) = (bs.drop 8).dropLast :=
        bytesOf_wordsOf ((bs.length - 9) / 4) _ (by rw [List.length_dropLast, List.length_drop]; omega)
      rw [encode, readResponseBytes, packetBytes_of_decodePacket _ p hp, hwords, List.append_assoc, hdrop,
        List.take_append_drop]
    next => cases h

/-- A request record that decodes: a frame with the header and the control code of a read or of a write, and behind it the
destination's handle or nothing (R45, R46; log 9). -/
theorem decodeRequest_inv {bs : List Byte} {i : Instr} (h : decodeRequest bs = .ok i) :
    ∃ p, packetBytes p = bs.take 8 ∧ p.hdr = Config.header ∧
      ((p.ctl = Config.ctlRead ∧ ∃ dest : Dest, i = .rdReq p.addr ⟨p.payload, dest⟩ ∧ dest.handle = bs.drop 8) ∨
        (p.ctl = Config.ctlWrite ∧ i = .wrReq p.addr p.payload ∧ bs.drop 8 = [])) := by
  unfold decodeRequest at h
  split at h
  next => cases h
  next p hp =>
    have hb := packetBytes_of_decodePacket _ p hp
    split_ifs at h with hr hw hl
    · split at h
      next dest hd =>
        cases h
        exact ⟨p, hb, hr.1, .inl ⟨hr.2, dest, rfl, decodeDest_inv hd⟩⟩
      next => cases h
    · cases h
      exact ⟨p, hb, hw.1, .inr ⟨hw.2, rfl, List.drop_of_length_le hl.le⟩⟩

/-- Byte 7 is all that the encoder does not take from a request record (log 10). -/
theorem encode_of_decodeRequest {bs : List Byte} {i : Instr} (h : decodeRequest bs = .ok i) :
    (encode i).port = .request ∧ 8 ≤ bs.length ∧ (encode i).bytes.take 7 = bs.take 7 ∧
      (encode i).bytes.drop 8 = bs.drop 8 := by
  obtain ⟨p, hp, hhdr, hi⟩ := decodeRequest_inv h
  have hlen : 8 ≤ bs.length := by
    have hl := congrArg List.length hp
    rw [packetBytes_length, List.length_take] at hl
    omega
  have hbody : pktBody Config.header p.ctl p.addr p.payload = bs.take 7 := by
    rw [← hhdr, ← List.take_left' (l₂ := [p.ck]) (pktBody_length p.hdr p.ctl p.addr p.payload), ← packetBytes, hp,
      List.take_take]
    rfl
  obtain ⟨hctl, dest, rfl, hdest⟩ | ⟨hctl, rfl, hdrop⟩ := hi <;> rw [hctl] at hbody
  · exact ⟨rfl, hlen, hbody, hdest⟩
  · exact ⟨rfl, hlen, hbody, hdrop.symm⟩

/-- Settles O4, port by port. -/
theorem everyRecordHasOneMeaning : Obligations.EveryRecordHasOneMeaning := by
  rintro ⟨port, bs⟩ i h
  cases port with
  | cmd => exact ⟨fun _ => encode_of_decodeCmd h, nofun⟩
  | request => exact ⟨fun hp => absurd rfl hp, fun _ => encode_of_decodeRequest h⟩
  | writeResponse => exact ⟨fun _ => encode_of_decodeWriteResponse h, nofun⟩
  | readResponse => exact ⟨fun _ => encode_of_decodeReadResponse h, nofun⟩

/-- Settles O5: each word evaluates, and a record that carries a destination is the record its instruction encodes to. -/
theorem writtenOutWordsDecode : Obligations.WrittenOutWordsDecode :=
  ⟨by decide, by decide, rfl, rfl, rfl, rfl, rfl, fun d => decode_encode (i := .issueRd 0x00CA 1 d) rfl,
    fun d => Laws.RoundTrip.decodeRequest_read 0x0CA 1 0xE9 d, rfl, rfl, rfl, rfl, rfl, rfl, rfl, rfl, rfl, by decide⟩

/-! ## The response frames (R47, R48) -/

theorem readResponseBytes_take (p : Packet) (vs : List Word) (ck : Byte) :
    (readResponseBytes p vs ck).take 8 = packetBytes p := by
  rw [readResponseBytes, List.append_assoc]
  exact List.take_left' (packetBytes_length p)

theorem readResponseBytes_last (p : Packet) (vs : List Word) (ck : Byte) :
    (readResponseBytes p vs ck)[8 + 4 * vs.length]? = some ck := by
  have hl : (packetBytes p ++ bytesOf vs).length = 8 + 4 * vs.length := by simp
  rw [readResponseBytes, ← hl, List.getElem?_concat_length]

/-- Settles O25: both rows are the `RX` of the frame's bytes, which stand as R43 and R48 lay them out. -/
theorem responseFramesAreReceived : Obligations.ResponseFramesAreReceived :=
  ⟨fun p _ => ⟨packetBytes p, rfl, packetBytes_map_toNat p⟩,
    fun p vs ck _ => ⟨readResponseBytes p vs ck, rfl, readResponseBytes_length p vs ck,
      readResponseBytes_take p vs ck ▸ packetBytes_map_toNat p, readResponseBytes_value p vs ck,
      readResponseBytes_last p vs ck⟩⟩

section
variable {s : State} {ch : List Byte}

/-- A chunk that is the whole frame, in an aligned buffer: `DEC_RESP` is handed that chunk (R79, R80). -/
theorem receive_whole_frame (hs : s.Inv) (hb : s.busy = true) (h0 : s.rxCount = 0) (hl : ch.length = s.expLen)
    (hcap : ch.length ≤ s.bufCap) : ∃ r, decodeResponse (kindInFlight s) (countInFlight s) ch = some r ∧
      receive ch s = .next (emit (completionOutputs s r) (disarm (copyChunk ch s))) := by
  have hh : s.Holds [] := ⟨h0.symm, fun i hi => by omega⟩
  have hc : s.expLen ≤ s.rxCount + storedCount ch s := by simp only [storedCount]; omega
  obtain ⟨hn, -⟩ | ⟨-, -, r, hr, he⟩ := receive_cases hs ch hh
  · exact absurd ⟨hb, hc⟩ hn
  · rw [List.nil_append, List.take_of_length_le hl.le] at hr
    exact ⟨r, hr, he⟩

/-- A frame answered: one completion, and the block is idle with nothing pending (R80, R94). -/
theorem answers_of_receive {os : List Output} (hs : s.Inv) (hb : s.busy = true)
    (h : receive ch s = .next (emit os (disarm (copyChunk ch s)))) :
    ∃ t, receive ch s = .next t ∧ t.rxCount = 0 ∧ t.pendValid = false ∧ t.busy = false ∧ controlState t = .idle ∧
      t.outputs = s.outputs ++ os :=
  ⟨_, h, rfl, rfl, rfl, (controlState_idle_iff _).mpr ⟨hs.busy_open hb, rfl⟩, rfl⟩

end

/-! ## The answer to a write (R67, R80) -/

/-- The frame's bytes sum to `0x32` exactly when its checksum byte is R57's of the others. -/
theorem packetBytes_sum_iff (p : Packet) : ((packetBytes p).map BitVec.toNat).sum % 256 = 0x32 ↔
    p.ck.toNat = (0x132 - (p.hdr.toNat + (16 * (p.addr.toNat / 256) + p.ctl.toNat) + p.addr.toNat % 256 +
      p.payload.toNat % 256 + p.payload.toNat / 256 % 256 + p.payload.toNat / 65536 % 256 +
      p.payload.toNat / 16777216) % 256) % 256 := by
  have := p.ck.isLt
  rw [packetBytes_map_toNat]
  simp only [List.sum_cons, List.sum_nil]
  omega

/-- `DEC_RESP` for a write yields no values, so a `DONE` with the checksum's verdict is all there is. -/
theorem completionOutputs_of_write {s : State} {c : Word} {b : List Byte} {r : DecResult} (hl : b.length = 8)
    (h : decodeResponse .wr c b = some r) :
    completionOutputs s r = [.done (decide ((b.map BitVec.toNat).sum % 256 = 0x32))] := by
  rw [decodeResponse_wr c b hl] at h
  injection h with h
  subst h
  split_ifs with hck <;> simp [completionOutputs, hck]

/-- Settles O26: the eight bytes are the whole frame of a write in flight. -/
theorem writeResponseAnswersTheWrite : Obligations.WriteResponseAnswersTheWrite := by
  intro s p hs hb hp h0
  have hlen : (packetBytes p).length = s.expLen := (hs.len_write hb hp).symm
  have hcap : (packetBytes p).length ≤ s.bufCap := (Nat.le_add_right 8 5).trans hs.cap_ge
  obtain ⟨r, hr, he⟩ := receive_whole_frame hs hb h0 hlen hcap
  have hk : kindInFlight s = .wr := by simp [kindInFlight, hp]
  rw [hk] at hr
  rw [completionOutputs_of_write (packetBytes_length p) hr] at he
  simp only [← packetBytes_sum_iff]
  exact answers_of_receive hs hb he

/-! ## The answer to a read (R68, R69, R70, R80, R81) -/

theorem controlOf_readResponseBytes (p : Packet) (vs : List Word) (ck : Byte) :
    controlOf (readResponseBytes p vs ck) = p.ctl := by
  simp [controlOf, readResponseBytes, packetBytes, pktBody]

theorem valuesOf_readResponseBytes (p : Packet) (vs : List Word) (ck : Byte) :
    valuesOf (readResponseBytes p vs ck) vs.length = if p.ctl = Config.ctlRead then vs else [] := by
  rw [valuesOf, controlOf_readResponseBytes, Config.valOffset, readResponseBytes_drop,
    List.take_left' (bytesOf_length vs), wordsOf_bytesOf]

/-- R57's checksum of a run of values, in the naturals. -/
theorem eq_cksum_bytesOf_iff (vs : List Word) (ck : Byte) : ck = cksum (bytesOf vs) ↔
    ck.toNat = (0x132 - (vs.map (fun v => v.toNat % 256 + v.toNat / 256 % 256 + v.toNat / 65536 % 256 +
      v.toNat / 16777216)).sum % 256) % 256 := by
  rw [← BitVec.toNat_inj, cksum_toNat, bytesOf_map_toNat_sum]

/-- The trailing byte is right when it is the checksum of the values alone (R68). -/
theorem readResponseBytes_sum_iff (p : Packet) (vs : List Word) (ck : Byte) :
    (((readResponseBytes p vs ck).drop 8).map BitVec.toNat).sum % 256 = 0x32 ↔ ck = cksum (bytesOf vs) := by
  rw [readResponseBytes_drop, ← byteSum_eq_iff, eq_cksum_iff]

/-- What `DEC_RESP` makes of a read response of as many values as the count asks for (R70). -/
theorem decodeResponse_readResponseBytes {c : Word} {vs : List Word} (hv : vs.length = max c.toNat 1) (p : Packet)
    (ck : Byte) : decodeResponse .rd c (readResponseBytes p vs ck) =
      some (if ck = cksum (bytesOf vs) then
        .decoded p.ctl (addressOf (readResponseBytes p vs ck)) (if p.ctl = Config.ctlRead then vs else [])
      else .checksumMismatch) := by
  rw [decodeResponse_rd c _ vs.length hv (readResponseBytes_length p vs ck), valuesOf_readResponseBytes,
    controlOf_readResponseBytes]
  simp only [readResponseBytes_sum_iff]

/-- The values go out exactly when the echoed control code is 1 (R73, R81). -/
theorem completionOutputs_of_read {s : State} (hp : s.pendValid = true) {vs : List Word} (hne : vs ≠ []) (ctl : BitVec 4)
    (a : Addr) : completionOutputs s (.decoded ctl a (if ctl = Config.ctlRead then vs else [])) =
      if ctl = 1 then [.wb s.pendDest vs, .done true] else [.done true] := by
  rw [Config.ctlRead]
  split_ifs
  · exact if_pos ⟨hp, hne⟩
  · exact if_neg fun h => h.2 rfl

/-- Settles O27: the bytes are the whole frame of a read in flight; a read has at least one value, so none lacks its `WB`. -/
theorem readResponseDeliversItsValues : Obligations.ReadResponseDeliversItsValues := by
  intro s p vs ck hs hb hp h0 hv hfit
  have hlen := readResponseBytes_length p vs ck
  obtain ⟨r, hr, he⟩ := receive_whole_frame hs hb h0 (by rw [hlen, hv, hs.len_read hb hp]) (hlen ▸ hfit)
  have hk : kindInFlight s = .rd := by simp [kindInFlight, hp]
  have hc : countInFlight s = s.pendCount := by simp [countInFlight, hp]
  have hne : vs ≠ [] := List.ne_nil_of_length_pos (by omega)
  rw [hk, hc, decodeResponse_readResponseBytes hv] at hr
  injection hr with hr
  obtain ⟨t, ht, hrx, hpv, hbusy, hidle, hout⟩ := answers_of_receive hs hb he
  refine ⟨t, ht, hrx, hpv, hbusy, hidle, ?_⟩
  simp only [← eq_cksum_bytesOf_iff]
  rw [hout, ← hr, apply_ite (completionOutputs s), completionOutputs_of_read hp hne, completionOutputs]

/-! ## The request frames (R45, R46, R77, R78) -/

/-- What an accepted read request does (R77). -/
def sendRead (a : Addr) (c : Word) (d : Dest) (s : State) : State := emit [.tx (encodeRead a c)] (armRead c d s)

/-- What an accepted write request does (R78). -/
def sendWrite (a : Addr) (w : Word) (s : State) : State := emit [.tx (encodeWrite a w)] (armWrite s)

theorem sendRead_eq (a : Addr) (c : Word) (d : Dest) (s : State) : sendRead a c d s = { s with
    expLen := 9 + 4 * max c.toNat 1, pendValid := true, pendDest := d, pendCount := c, busy := true,
    outputs := s.outputs ++ [.tx (encodeRead a c)] } := by
  rw [← expectedLen_rd, sendRead, emit, armRead]

/-- The row `RD_REQ` is an `ISSUE` (log 9). -/
theorem exec_rdReq (a : WireAddr) (read : PendingRead) (s : State) :
    exec (.rdReq a read) s = issue (sendRead (a.setWidth 16) read.count read.dest) s := rfl

/-- The row `WR_REQ` is an `ISSUE` (log 9). -/
theorem exec_wrReq (a : WireAddr) (w : Word) (s : State) :
    exec (.wrReq a w) s = issue (sendWrite (a.setWidth 16) w) s := rfl

section
variable {s : State}

theorem issue_of_closed (accept : State → State) (hl : s.linkOpen = false) :
    issue accept s = .next (raise .transportUnavailable s) := by
  simp [issue, hl]

theorem issue_of_busy (accept : State → State) (hl : s.linkOpen = true) (hb : s.busy = true) :
    issue accept s = .next (raise .busy s) := by
  simp [issue, hl, hb]

theorem issue_of_idle (accept : State → State) (hl : s.linkOpen = true) (hb : s.busy = false) :
    issue accept s = .next (accept s) := by
  simp [issue, hl, hb]

end

/-- The frame sent for an address of 12 bits, byte by byte (R59). -/
theorem pkt_setWidth_map_toNat (c : BitVec 4) (a : WireAddr) (p : Word) : (pkt c (a.setWidth 16) p).map BitVec.toNat =
    let b := [0x7D, 16 * (a.toNat / 256) + c.toNat, a.toNat % 256, p.toNat % 256, p.toNat / 256 % 256,
        p.toNat / 65536 % 256, p.toNat / 16777216]
    b ++ [(0x132 - b.sum % 256) % 256] := by
  have ha := a.isLt
  have hp := p.isLt
  have hw : (a.setWidth 16).toNat = a.toNat := by rw [BitVec.toNat_setWidth]; omega
  have hhi : a.toNat / 256 % 16 = a.toNat / 256 := by omega
  have htop : p.toNat / 16777216 % 256 = p.toNat / 16777216 := by omega
  rw [pkt_map_toNat, hw, hhi, htop]

/-- Settles O28: both rows are an `ISSUE` with its three outcomes, and an accepted one sends the encoder's frame. -/
theorem requestFramesAreSent : Obligations.RequestFramesAreSent := by
  intro s a read w
  simp only [exec_rdReq, exec_wrReq]
  refine ⟨fun hl => ⟨issue_of_closed _ hl, issue_of_closed _ hl⟩,
    fun hl hb => ⟨issue_of_busy _ hl hb, issue_of_busy _ hl hb⟩, fun hl hb => ?_⟩
  refine ⟨encodeRead (a.setWidth 16) read.count, encodeWrite (a.setWidth 16) w, ?_, issue_of_idle _ hl hb,
    pkt_setWidth_map_toNat Config.ctlRead a read.count, pkt_setWidth_map_toNat Config.ctlWrite a w⟩
  rw [issue_of_idle _ hl hb, sendRead_eq]

end Sys2Proof.Machine
end

section
/-! The statements about the codec's encoder (40_codec_encode.md): the checksum and what it catches (R57, R62, R63), the request
frames of `ENC_RD` and `ENC_WR` (R59 to R61), and what a frame keeps of its fields (R64). -/

namespace Sys2Proof.Machine

/-! ## The checksum (R57, R63) -/

/-- Settles O29: the result is `cksum`, whose value `cksum_toNat` states; the two forms of R57 are one number. -/
theorem checksumFunction : Obligations.ChecksumFunction := by
  refine ⟨⟨[], rfl⟩, fun s bs => ⟨cksum bs, rfl, ?_, cksum_toNat bs⟩⟩
  have := cksum_toNat bs
  omega

/-- Of two byte sequences that differ in one position the sums differ, because in a sum of bytes the others cancel. -/
theorem byteSum_ne_of_differ_once {b b' : List Byte} {i : Nat} (hlen : b.length = b'.length) (hi : b[i]? ≠ b'[i]?)
    (hrest : ∀ j, j ≠ i → b[j]? = b'[j]?) : byteSum b ≠ byteSum b' := by
  induction b generalizing b' i with
  | nil => exact absurd (by rw [List.length_eq_zero_iff.mp hlen.symm]) hi
  | cons x xs ih =>
    cases b' with
    | nil => cases hlen
    | cons y ys =>
      rw [byteSum_cons, byteSum_cons]
      cases i with
      | zero =>
        obtain rfl : xs = ys := List.ext_getElem? fun j => hrest (j + 1) j.succ_ne_zero
        exact fun h => hi (congrArg some ((BitVec.add_left_inj (byteSum xs)).mp h))
      | succ i =>
        obtain rfl : x = y := Option.some.inj (hrest 0 i.succ_ne_zero.symm)
        have hne : byteSum xs ≠ byteSum ys := ih (Nat.succ.inj hlen) hi
          fun j hj => hrest (j + 1) fun h => hj (Nat.succ.inj h)
        exact fun h => hne ((BitVec.add_right_inj x).mp h)

/-- A valid frame is its first seven bytes and their checksum (R67), so no other valid frame begins with them. -/
theorem eq_append_cksum_of_pktOk {f : List Byte} (hlen : f.length = 8) (hf : pktOk f = true) :
    f = f.take 7 ++ [cksum (f.take 7)] := by
  obtain ⟨h7, hck⟩ := List.getElem?_eq_some_iff.mp (of_decide_eq_true hf)
  rw [← hck, List.take_concat_get', List.take_of_length_le hlen.le]

/-- Settles O35: what the sum of bytes sees, and what it does not. -/
theorem oneCorruptedByteIsCaught : Obligations.OneCorruptedByteIsCaught := by
  refine ⟨fun b b' i hlen hi hrest h => ?_, fun f f' hlen hlen' htake hne hf => ?_, fun b b' h => ?_,
    fun pre mid post x y => ?_⟩
  · exact byteSum_ne_of_differ_once hlen hi hrest ((cksum_inj b b').mp h)
  · refine Bool.eq_false_iff.mpr fun hf' => hne ?_
    rw [eq_append_cksum_of_pktOk hlen hf, htake, ← eq_append_cksum_of_pktOk hlen' hf']
  · exact (cksum_inj b b').mpr (byteSum_perm h)
  · rw [cksum_inj]
    simp only [byteSum_append, byteSum_cons, byteSum_nil]
    ring

/-! ## The request frames (R59 to R62) -/

/-- Settles O30: byte by byte, in `pkt_map_toNat`. -/
theorem encodeFunctions : Obligations.EncodeFunctions :=
  ⟨⟨0, 0, by decide⟩, ⟨0, 0, by decide⟩, fun _ addr w => ⟨encodeRead addr w, encodeWrite addr w, rfl, rfl,
    pkt_map_toNat Config.ctlRead addr w, pkt_map_toNat Config.ctlWrite addr w⟩⟩

/-- Settles O34: the checksum byte makes the sum `0x32`, and that is what the check looks for. -/
theorem encodedFramesPassTheCheck : Obligations.EncodedFramesPassTheCheck := fun c a p =>
  ⟨(pktOk_iff _ (pkt_length c a p)).mpr (pkt_checksum c a p), (byteSum_eq_iff _).mp (pkt_checksum c a p)⟩

/-! ## What a frame keeps of its fields (R49, R64) -/

/-- Two addresses are the same on the wire exactly when they agree below bit 12 (R49). -/
theorem wireAddr_eq_iff (a a' : Addr) : wireAddr a = wireAddr a' ↔ a.toNat % 0x1000 = a'.toNat % 0x1000 := by
  rw [← BitVec.toNat_inj, wireAddr_toNat, wireAddr_toNat]

/-- Of addresses below `0x1000` nothing is lost on the wire. -/
theorem eq_of_wireAddr_eq {a a' : Addr} (ha : a.toNat < 0x1000) (ha' : a'.toNat < 0x1000)
    (h : wireAddr a = wireAddr a') : a = a' := by
  have hmod := (wireAddr_eq_iff a a').mp h
  rw [Nat.mod_eq_of_lt ha, Nat.mod_eq_of_lt ha'] at hmod
  exact BitVec.eq_of_toNat_eq hmod

/-- The decoder of frames reads back what the encoder put in. -/
theorem decodePacket_pkt (c : BitVec 4) (a : Addr) (p : Word) : decodePacket (pkt c a p) =
    .ok ⟨Config.header, c, wireAddr a, p, cksum (pktBody Config.header c (wireAddr a) p)⟩ :=
  decodePacket_packetBytes ⟨Config.header, c, wireAddr a, p, cksum (pktBody Config.header c (wireAddr a) p)⟩

/-- A frame determines its control code, the address on the wire and the payload. -/
theorem pkt_fields_inj {c c' : BitVec 4} {a a' : Addr} {p p' : Word} (h : pkt c a p = pkt c' a' p') :
    c = c' ∧ wireAddr a = wireAddr a' ∧ p = p' := by
  have hd := congrArg decodePacket h
  rw [decodePacket_pkt, decodePacket_pkt] at hd
  injection hd with hfields
  injection hfields with _ hc ha hp
  exact ⟨hc, ha, hp⟩

/-- Settles O36: a frame holds the address on the wire, which is the whole address where bits 15:12 are zero. -/
theorem encoderIsInjective : Obligations.EncoderIsInjective := by
  refine ⟨fun c c' a a' p p' ha ha' h => ?_, fun c a p ha => ?_, fun c a a' p h => ?_⟩
  · obtain ⟨hc, hw, hp⟩ := pkt_fields_inj h
    exact ⟨hc, eq_of_wireAddr_eq ha ha' hw, hp⟩
  · refine ⟨_, _, _, _, _, _, _, _, rfl, ?_, ?_, ?_⟩
    · rw [← ctlOf_toNat, ctlOf_ctlByte]
    · rw [← joinAddr_toNat, joinAddr_split, wireAddr_toNat, Nat.mod_eq_of_lt ha]
    · rw [← unle32_toNat, unle32_le32]
  · simp only [pkt, (wireAddr_eq_iff a a').mpr h]

end Sys2Proof.Machine
end

section
/-! The statements about the codec's decoder (41_codec_decode.md): the expected length (R66), the packet check (R67), what
`DEC_RESP` answers (R70) and does not look at (R72), and its round trip with the encoder (R71). -/

namespace Sys2Proof.Machine

/-! ## The round trip (R69, R70, R71) -/

/-- On its domain `DEC_RESP` gives its outcome to the result port and changes nothing else (R24, R70). -/
theorem exec_decResp_of_some {k : Kind} {c : Word} {b : List Byte} {r : DecResult} (h : decodeResponse k c b = some r)
    (s : State) : exec (.decResp k c b) s = .next { s with results := s.results ++ [.response r] } := by
  simp only [exec, execDecResp, h, giveResult]

/-- A frame as the encoder builds it, seen as a frame received. -/
theorem pkt_eq_packetBytes (ctl : BitVec 4) (a : Addr) (p : Word) : pkt ctl a p =
    packetBytes ⟨Config.header, ctl, wireAddr a, p, cksum (pktBody Config.header ctl (wireAddr a) p)⟩ := rfl

/-- The control code is read from byte 1 (R69), whatever follows. -/
theorem controlOf_packetBytes_append (p : Packet) (bs : List Byte) : controlOf (packetBytes p ++ bs) = p.ctl :=
  ctlOf_ctlByte (addrHi p.addr) p.ctl

/-- The address is read from bytes 1 and 2 (R69), whatever follows. -/
theorem addressOf_packetBytes_append (p : Packet) (bs : List Byte) :
    addressOf (packetBytes p ++ bs) = p.addr.setWidth 16 :=
  congrArg (BitVec.setWidth 16) (joinAddr_split p.addr p.ctl)

/-- An address below `0x1000` comes back whole from the wire (R49). -/
theorem setWidth_wireAddr {a : Addr} (ha : a.toNat < 0x1000) : (wireAddr a).setWidth 16 = a := by
  apply BitVec.eq_of_toNat_eq
  rw [BitVec.toNat_setWidth, wireAddr_toNat, Nat.mod_eq_of_lt ha, Nat.mod_eq_of_lt a.isLt]

/-- A read request's frame as the echo, the values, and their checksum: the decoder gives back what was put in. -/
theorem decodeResponse_encodeRead {a : Addr} {c : Word} {v : List Word} (ha : a.toNat < 0x1000)
    (hv : v.length = max c.toNat 1) :
    decodeResponse .rd c (encodeRead a c ++ bytesOf v ++ [cksum (bytesOf v)]) = some (.decoded Config.ctlRead a v) := by
  rw [encodeRead, pkt_eq_packetBytes, ← readResponseBytes, decodeResponse_readResponseBytes hv, if_pos rfl, if_pos rfl,
    readResponseBytes, List.append_assoc, addressOf_packetBytes_append, setWidth_wireAddr ha]

/-- A write request's frame, echoed as it was sent. -/
theorem decodeResponse_encodeWrite {a : Addr} (ha : a.toNat < 0x1000) (c w : Word) :
    decodeResponse .wr c (encodeWrite a w) = some (.decoded Config.ctlWrite a []) := by
  have hsum := (byteSum_eq_iff _).mp (pkt_checksum Config.ctlWrite a w)
  rw [encodeWrite, decodeResponse_wr c _ (pkt_length _ _ _), if_pos hsum, pkt_eq_packetBytes,
    ← List.append_nil (packetBytes _), controlOf_packetBytes_append, addressOf_packetBytes_append, setWidth_wireAddr ha]

/-- Settles O37: the byte that meets R57's formula is the checksum of the values, and the echo is the request's own frame. -/
theorem responsesToEncodedRequestsDecode : Obligations.ResponsesToEncodedRequestsDecode := by
  refine ⟨fun s a c v ck ha hv hck => ?_, fun s a c w ha => ?_⟩
  · obtain rfl := (eq_cksum_bytesOf_iff v ck).mpr hck
    exact exec_decResp_of_some (decodeResponse_encodeRead ha hv) s
  · exact exec_decResp_of_some (decodeResponse_encodeWrite ha c w) s

/-! ## What DEC_RESP answers (R67, R68, R70) -/

/-- Off its domain `DEC_RESP` is refused, and the refusal names both lengths (R70). -/
theorem exec_decResp_of_length_ne {k : Kind} {c : Word} {b : List Byte} (h : b.length ≠ expectedLen k c) (s : State) :
    exec (.decResp k c b) s = .refused (.decRespLength b.length (expectedLen k c)) := by
  simp only [exec, execDecResp, (decodeResponse_none k c b).mpr h]

/-- `EXP_LEN` for both kinds in one formula (R66). -/
theorem expectedLen_eq_ite (k : Kind) (c : Word) :
    expectedLen k c = if k = .wr then 8 else 9 + 4 * max c.toNat 1 := by
  cases k with
  | wr => rfl
  | rd => exact expectedLen_rd c

section
variable {k : Kind} {c : Word} {b : List Byte} {n : Nat}

/-- A wrong sum, of the whole response to a write or of what stands behind a read's echo, is a mismatch. -/
theorem decodeResponse_of_sum_ne (hn : n = max c.toNat 1) (hl : b.length = if k = .wr then 8 else 9 + 4 * n)
    (hsum : ((if k = .wr then b else b.drop 8).map BitVec.toNat).sum % 256 ≠ 0x32) :
    decodeResponse k c b = some .checksumMismatch := by
  cases k with
  | wr => exact (decodeResponse_wr c b hl).trans (congrArg some (if_neg hsum))
  | rd => exact (decodeResponse_rd c b n hn hl).trans (congrArg some (if_neg hsum))

/-- A right sum gives control, address and, for a read whose echoed control code is 1, the words from byte 8. -/
theorem decodeResponse_of_sum_eq (hn : n = max c.toNat 1) (hl : b.length = if k = .wr then 8 else 9 + 4 * n)
    (hsum : ((if k = .wr then b else b.drop 8).map BitVec.toNat).sum % 256 = 0x32) :
    ∃ v, decodeResponse k c b = some (.decoded (controlOf b) (addressOf b) v) ∧
      v.length = (if k = .rd ∧ controlOf b = 1 then n else 0) ∧
      ∀ j, j < v.length → (v.getD j 0).toNat = (b.getD (8 + 4 * j) 0).toNat + 256 * (b.getD (9 + 4 * j) 0).toNat +
        65536 * (b.getD (10 + 4 * j) 0).toNat + 16777216 * (b.getD (11 + 4 * j) 0).toNat := by
  cases k with
  | wr =>
    exact ⟨[], (decodeResponse_wr c b hl).trans (congrArg some (if_pos hsum)), rfl, fun j hj => absurd hj j.not_lt_zero⟩
  | rd =>
    have hlen : (valuesOf b n).length = if controlOf b = 1 then n else 0 := valuesOf_length b n hl
    refine ⟨valuesOf b n, (decodeResponse_rd c b n hn hl).trans (congrArg some (if_pos hsum)), by simpa using hlen,
      fun j hj => ?_⟩
    split_ifs at hlen with hc
    · exact valuesOf_getD b n hl hc j (hlen ▸ hj)
    · omega

end

/-- Settles O32: refused off the domain; on it the sum decides between a mismatch and the record. -/
theorem decodeResponseFunction : Obligations.DecodeResponseFunction := by
  refine ⟨⟨.rd, 0, List.replicate 13 0, by decide⟩, fun s k c b n hn => ?_⟩
  refine ⟨fun hl => ?_, fun hl hsum => ?_, fun hl hsum => ?_⟩
  · rw [hn, ← expectedLen_eq_ite] at hl
    exact ⟨_, exec_decResp_of_length_ne hl s⟩
  · exact exec_decResp_of_some (decodeResponse_of_sum_ne hn hl hsum) s
  · obtain ⟨v, hd, hlen, hval⟩ := decodeResponse_of_sum_eq hn hl hsum
    exact ⟨controlOf b, addressOf b, v, exec_decResp_of_some hd s, controlOf_toNat b, addressOf_toNat b, hlen, hval⟩

/-! ## What DEC_RESP of a read does not look at (R53, R72) -/

section
variable {b b' : List Byte}

theorem controlOf_congr (h1 : b[1]? = b'[1]?) : controlOf b = controlOf b' := by
  simp only [controlOf, List.getD_eq_getElem?_getD, h1]

theorem addressOf_congr (h1 : b[1]? = b'[1]?) (h2 : b[2]? = b'[2]?) : addressOf b = addressOf b' := by
  simp only [addressOf, List.getD_eq_getElem?_getD, h1, h2]

theorem valuesOf_congr (h1 : b[1]? = b'[1]?) (hd : b.drop 8 = b'.drop 8) (n : Nat) : valuesOf b n = valuesOf b' n := by
  simp only [valuesOf, controlOf_congr h1, Config.valOffset, hd]

/-- The length, bytes 1 and 2, and what stands behind the echo are all that a read's decoding looks at. -/
theorem decodeResponse_rd_congr (hlen : b.length = b'.length) (h1 : b[1]? = b'[1]?) (h2 : b[2]? = b'[2]?)
    (hd : b.drop 8 = b'.drop 8) (c : Word) : decodeResponse .rd c b = decodeResponse .rd c b' := by
  by_cases hl : b.length = expectedLen .rd c
  · have hb := expectedLen_rd c ▸ hl
    rw [decodeResponse_rd c b _ rfl hb, decodeResponse_rd c b' _ rfl (hlen ▸ hb), hd, controlOf_congr h1,
      addressOf_congr h1 h2, valuesOf_congr h1 hd]
  · rw [(decodeResponse_none .rd c b).mpr hl, (decodeResponse_none .rd c b').mpr (hlen ▸ hl)]

end

/-- Settles O33: equal outcomes, and where the call is refused, the same length named. -/
theorem decoderIgnoresTheRestOfTheEcho : Obligations.DecoderIgnoresTheRestOfTheEcho := by
  intro s c b b' hlen h1 h2 hd
  simp only [exec, execDecResp, decodeResponse_rd_congr hlen h1 h2 hd c, hlen]

/-! ## The packet check (R67) -/

/-- `PKT_OK` is R67's comparison of byte 7. -/
theorem pktOk_iff_getD {f : List Byte} (hf : f.length = 8) : pktOk f = true ↔ f.getD 7 0 = cksum (f.take 7) := by
  have h7 : f[7]? = some (f.getD 7 0) := by
    rw [List.getD_eq_getElem?_getD, List.getElem?_eq_getElem (by omega), Option.getD_some]
  rw [pktOk, decide_eq_true_iff, h7, Option.some.injEq]

/-- Settles O38: a comparison with the checksum, or a sum of `0x32`, and a sum sees no order. -/
theorem packetCheckIsASymmetricSum : Obligations.PacketCheckIsASymmetricSum := by
  refine fun f hf => ⟨?_, ?_, fun g hg => ?_⟩
  · rw [pktOk_iff_getD hf, ← BitVec.toNat_inj, cksum_toNat]
  · rw [pktOk_iff f hf, byteSum_eq_iff]
  · rw [Bool.eq_iff_iff, pktOk_iff g (hg.length_eq ▸ hf), pktOk_iff f hf, byteSum_perm hg]

/-! ## The expected length (R65, R66) -/

/-- Settles O31: the two formulas of R66; a read's is 13 or more and odd, since its count is taken as at least 1. -/
theorem expectedLengthFunction : Obligations.ExpectedLengthFunction := by
  refine ⟨⟨.rd, 0, by decide⟩, fun s k c => ⟨expectedLen k c, rfl, ?_⟩⟩
  cases k with
  | wr => exact ⟨fun _ => rfl, by simp, by simp⟩
  | rd =>
    rw [expectedLen_rd]
    exact ⟨by simp, fun _ => ⟨rfl, by omega⟩, by omega⟩

end Sys2Proof.Machine
end

section
/-! The statements about the reassembly (42_reassembly.md): the events that write the flags (R74 to R78), and what arriving bytes
do: they are stored (R79), they complete a frame or they do not (R80), surplus (R84), empty chunks (R85), chunking (R86). -/

namespace Sys2Proof.Machine

/-! ## What arriving bytes do (R79, R80) -/

section
variable {s t : State} {ch : List Byte}

/-- Bytes that complete nothing are stored, in any state. -/
theorem receive_stores (hc : ¬ (s.busy = true ∧ s.expLen ≤ s.rxCount + storedCount ch s)) :
    receive ch s = .next (copyChunk ch s) := if_neg hc

/-- Bytes that complete the frame in flight: `DEC_RESP` is handed the first `exp_len` bytes received. -/
theorem receive_completes {bs : List Byte} (hs : s.Inv) (hb : s.busy = true) (hh : s.Holds bs)
    (hc : s.expLen ≤ s.rxCount + storedCount ch s) :
    ∃ r, decodeResponse (kindInFlight s) (countInFlight s) ((bs ++ ch).take s.expLen) = some r ∧
      receive ch s = .next (emit (completionOutputs s r) (disarm (copyChunk ch s))) := by
  obtain ⟨hn, -⟩ | ⟨-, -, hr⟩ := receive_cases hs ch hh
  · exact absurd ⟨hb, hc⟩ hn
  · exact hr

/-- A length that fits the buffer and that the chunk reaches is reached by its stored part too. -/
theorem stored_reaches {n : Nat} (hn : n ≤ s.rxCount + ch.length) (hcap : n ≤ s.bufCap) :
    n ≤ s.rxCount + storedCount ch s := by
  simp only [storedCount]; omega

/-- A completion leaves the buffer as the copy phase left it. -/
theorem receive_buf (h : receive ch s = .next t) : t.buf = (copyChunk ch s).buf := by
  obtain ⟨-, rfl⟩ | ⟨-, -, r, rfl⟩ := receive_next h <;> rfl

end

/-- Settles O17: the copy phase writes the run and the counter, and a completion only clears flags and outputs. -/
theorem arrivingBytesAreStored : Obligations.ArrivingBytesAreStored := by
  intro s t i ch hb h
  rw [exec_arriving hb] at h
  rw [receive_buf h]
  refine ⟨fun a hlo hhi => ?_, fun a ha => ?_, fun hw => writeRun_wf _ hw _, ?_⟩
  · exact (copyChunk_read ch s a).trans (if_pos ⟨hlo, hhi⟩)
  · exact (copyChunk_read ch s a).trans (if_neg (by rw [storedCount]; omega))
  · obtain ⟨-, rfl⟩ | ⟨-, -, r, rfl⟩ := receive_next h <;> exact ⟨rfl, rfl, rfl, rfl, rfl, rfl, rfl⟩

/-- Settles O18: the completion phase does nothing, so what is left is the copy phase. -/
theorem arrivalWithoutCompletion : Obligations.ArrivalWithoutCompletion :=
  fun s _ ch hb hc => ⟨copyChunk ch s, (exec_arriving hb s).trans (receive_stores hc), rfl, rfl, rfl, rfl⟩

/-! ## Completions (R67 to R70, R73, R80, R81) -/

/-- Without values there is no write-back. -/
theorem completionOutputs_nil (s : State) (ctl : BitVec 4) (a : Addr) :
    completionOutputs s (.decoded ctl a []) = [.done true] := if_neg fun h => h.2 rfl

/-- The values of a read are written back before the notification. -/
theorem completionOutputs_values {s : State} {v : List Word} (hp : s.pendValid = true) (hv : v ≠ []) (ctl : BitVec 4)
    (a : Addr) : completionOutputs s (.decoded ctl a v) = [.wb s.pendDest v, .done true] := if_pos ⟨hp, hv⟩

/-- Settles O19: the sum and the echoed control code decide which of the three answers `DEC_RESP` gives; a read has at least one
value, so with code 1 there is a write-back. -/
theorem completionOfARead : Obligations.CompletionOfARead := by
  intro s i ch old n b hs hb hp hold harr hn hbdef hlen hcap
  have hexp : s.expLen = 9 + 4 * n := by rw [hs.len_read hb hp, hn]
  have hbl : b.length = 9 + 4 * n := by
    rw [hbdef, List.length_take, List.length_append, hold.1]; omega
  obtain ⟨r, hr, he⟩ := receive_completes hs hb hold (hexp ▸ stored_reaches hlen hcap)
  rw [kindInFlight, if_pos hp, countInFlight, if_pos hp, hexp, ← hbdef] at hr
  refine ⟨_, (exec_arriving harr s).trans he, rfl, rfl, rfl, fun hsum => ?_, fun hsum hctl => ?_, fun hsum hctl => ?_⟩
  · rw [decodeResponse_of_sum_ne (k := .rd) hn hbl hsum] at hr
    cases hr
    rfl
  · obtain ⟨v, hd, hv, -⟩ := decodeResponse_of_sum_eq (k := .rd) hn hbl hsum
    rw [if_neg fun h => hctl ((controlOf_read b).mp h.2)] at hv
    cases List.length_eq_zero_iff.mp hv
    cases hr.symm.trans hd
    exact congrArg (s.outputs ++ ·) (completionOutputs_nil s _ _)
  · obtain ⟨v, hd, hv, hval⟩ := decodeResponse_of_sum_eq (k := .rd) hn hbl hsum
    rw [if_pos ⟨rfl, (controlOf_read b).mpr hctl⟩] at hv
    have hne : v ≠ [] := List.ne_nil_of_length_pos (by omega)
    cases hr.symm.trans hd
    exact ⟨v, congrArg (s.outputs ++ ·) (completionOutputs_values hp hne _ _), hv, fun j hj => hval j (hv ▸ hj)⟩

/-- Settles O20: the eight bytes fit every buffer (R5), and `DEC_RESP` for a write yields no values. -/
theorem completionOfAWrite : Obligations.CompletionOfAWrite := by
  intro s i ch old hs hb hp hold harr hlen
  have hexp : s.expLen = 8 := hs.len_write hb hp
  have hcap : 8 ≤ s.bufCap := (Nat.le_add_right 8 5).trans hs.cap_ge
  have hk : kindInFlight s = .wr := by simp [kindInFlight, hp]
  have hbl : ((old ++ ch).take 8).length = 8 := by
    rw [List.length_take, List.length_append, hold.1]; omega
  obtain ⟨r, hr, he⟩ := receive_completes hs hb hold (hexp ▸ stored_reaches hlen hcap)
  rw [hk, hexp] at hr
  rw [completionOutputs_of_write hbl hr] at he
  exact ⟨_, (exec_arriving harr s).trans he, rfl, rfl, rfl, rfl⟩

/-! ## Surplus bytes (R84) -/

/-- A first part that completes the frame decides the outputs: with or without more bytes behind it, the completion decodes the
same `exp_len` bytes. -/
theorem receive_completes_with_surplus {s : State} {c1 : List Byte} (hs : s.Inv) (hb : s.busy = true)
    (hlen : s.expLen ≤ s.rxCount + c1.length) (hcap : s.expLen ≤ s.bufCap) (c2 : List Byte) :
    ∃ os, receive c1 s = .next (emit os (disarm (copyChunk c1 s))) ∧
      receive (c1 ++ c2) s = .next (emit os (disarm (copyChunk (c1 ++ c2) s))) := by
  obtain ⟨bs, hh⟩ := exists_holds hs
  have hlen' : s.expLen ≤ s.rxCount + (c1 ++ c2).length := by rw [List.length_append]; omega
  have hfirst : s.expLen ≤ (bs ++ c1).length := by rw [List.length_append, hh.1]; exact hlen
  obtain ⟨r, hr, he⟩ := receive_completes hs hb hh (stored_reaches hlen hcap)
  obtain ⟨r', hr', he'⟩ := receive_completes hs hb hh (stored_reaches hlen' hcap)
  rw [← List.append_assoc, List.take_append_of_le_length hfirst, hr] at hr'
  cases hr'
  exact ⟨_, he, he'⟩

/-- Once a frame is disarmed, nothing of what had been copied can be observed (R22). -/
theorem disarm_copyChunk_sameObservable (c c' : List Byte) (s : State) :
    (disarm (copyChunk c s)).SameObservable (disarm (copyChunk c' s)) where
  linkOpen := rfl
  busy := rfl
  rxCount := rfl
  pendValid := rfl
  expLen := fun _ => rfl
  pendDest := fun _ => rfl
  pendCount := fun _ => rfl
  bytes := fun i hi => absurd hi i.not_lt_zero
  bufCap := rfl
  input := rfl
  outputs := rfl
  results := rfl

/-- Settles O21: both completions give the same outputs, and the surplus in the buffer is hidden. -/
theorem surplusBytesAreLost : Obligations.SurplusBytesAreLost := by
  intro s c1 c2 hs hb hlen hcap
  obtain ⟨os, h1, h2⟩ := receive_completes_with_surplus hs hb hlen.ge hcap c2
  exact ⟨_, _, h1, h2, rfl, (disarm_copyChunk_sameObservable (c1 ++ c2) c1 s).emit os⟩

/-! ## The empty chunk (R85) -/

theorem storedCount_nil (s : State) : storedCount [] s = 0 := Nat.zero_min _

/-- An empty chunk that completes nothing changes nothing, in any state. -/
theorem receive_nil {s : State} (hc : ¬ (s.busy = true ∧ s.expLen ≤ s.rxCount)) : receive [] s = .next s := by
  rw [receive_stores (by rwa [storedCount_nil, Nat.add_zero]), copyChunk_nil]

/-- After arriving bytes no complete frame is in flight: where one was, the completion has disarmed it. -/
theorem receive_leaves_incomplete {s t : State} {ch : List Byte} (h : receive ch s = .next t) :
    ¬ (t.busy = true ∧ t.expLen ≤ t.rxCount) := by
  obtain ⟨hc, rfl⟩ | ⟨-, -, r, rfl⟩ := receive_next h
  · exact hc
  · simp

/-- Settles O22: only an `ISSUE` can put a request behind bytes already there, because arriving bytes complete what they can, and
everything else leaves the counter and the request as they are. -/
theorem emptyChunkEvent : Obligations.EmptyChunkEvent := by
  refine ⟨fun s hc => receive_nil hc, fun s hs hb hlen => ?_, fun s t i h hb hlen => ?_⟩
  · obtain ⟨bs, hh⟩ := exists_holds hs
    obtain ⟨r, -, he⟩ := receive_completes (ch := []) hs hb hh (hlen.trans (Nat.le_add_right _ _))
    obtain ⟨os, ok, ho⟩ := completionOutputs_done s r
    rw [ho, copyChunk_nil] at he
    exact ⟨_, os, ok, he, rfl, rfl, (List.append_assoc _ _ _).symm⟩
  · cases exec_effect h with
    | arrive ch _ _ _ hr => exact absurd ⟨hb, hlen⟩ (receive_leaves_incomplete hr)
    | cancel _ _ _ ht => cases ht; cases hb
    | link hi ht => cases ht; exact .inl ⟨hb, hlen, hi ▸ rfl⟩
    | unavailable hn _ _ _ ht | busy hn _ _ _ _ ht | result _ hn _ _ ht => cases ht; exact .inl ⟨hb, hlen, hn⟩
    | armRead _ _ _ _ hi _ _ hs ht | armWrite _ _ _ hi _ _ hs ht => cases ht; exact .inr ⟨hs, hi, rfl⟩

/-! ## Chunking (R86) -/

/-- After a part that was only stored, the rest does what the whole would have done. -/
theorem receive_copyChunk (c1 c2 : List Byte) (s : State) : receive c2 (copyChunk c1 s) = receive (c1 ++ c2) s :=
  congrArg complete (copyChunk_append s c1 c2)

theorem andThen_next (o : Host.Outcome State Fault Refusal) : andThen o .next = o := by
  cases o <;> rfl

theorem exec_rx (ch : List Byte) (s : State) : exec (.rx ch) s = receive ch s := rfl

/-- Empty chunks where no complete frame is in flight. -/
theorem execAll_empty_chunks {s : State} {cs : List (List Byte)} (hcs : cs.flatten = [])
    (hc : ¬ (s.busy = true ∧ s.expLen ≤ s.rxCount)) : execAll (cs.map Instr.rx) s = .next s := by
  induction cs with
  | nil => rfl
  | cons c cs ih =>
    rw [List.flatten_cons, List.append_eq_nil_iff] at hcs
    obtain ⟨rfl, hcs⟩ := hcs
    rw [List.map_cons, execAll_cons_eq, exec_rx, receive_nil hc]
    exact ih hcs

/-- Without surplus a sequence of chunks does what their bytes do in one: the first part is only stored, or it is everything and
the other parts are empty. -/
theorem execAll_chunks (cs : List (List Byte)) : ∀ (c : List Byte) (s : State),
    s.rxCount + (c :: cs).flatten.length ≤ s.expLen →
    execAll ((c :: cs).map Instr.rx) s = receive (c :: cs).flatten s := by
  induction cs with
  | nil =>
    intro c s _
    rw [List.flatten_singleton]
    exact andThen_next (receive c s)
  | cons c' cs ih =>
    intro c s hlen
    have hk := storedCount_le c s
    rw [List.flatten_cons, List.length_append] at hlen
    rw [List.map_cons, execAll_cons_eq, exec_rx, List.flatten_cons]
    by_cases hc : s.busy = true ∧ s.expLen ≤ s.rxCount + storedCount c s
    · have hnil : (c' :: cs).flatten = [] := List.eq_nil_of_length_eq_zero (by omega)
      rw [hnil, List.append_nil]
      exact (andThen_congr fun t ht => execAll_empty_chunks hnil (receive_leaves_incomplete ht)).trans (andThen_next _)
    · have hrest : (copyChunk c s).rxCount + (c' :: cs).flatten.length ≤ (copyChunk c s).expLen := by
        rw [copyChunk_rxCount, copyChunk_expLen]; omega
      rw [receive_stores hc, ← receive_copyChunk]
      exact ih c' (copyChunk c s) hrest

/-- Stray bytes: with no request in flight and nothing received, what fits of a chunk is stored from offset 0. -/
theorem receive_stray {s : State} (hb : s.busy = false) (h0 : s.rxCount = 0) (ch : List Byte) :
    receive ch s = .next (copyChunk ch s) ∧ (copyChunk ch s).rxCount = min ch.length s.bufCap ∧
      ∀ a, a < (copyChunk ch s).rxCount → (copyChunk ch s).buf.read a = ch[a]? := by
  have hh : s.Holds [] := ⟨h0.symm, fun i hi => by omega⟩
  refine ⟨receive_stores (by simp [hb]), ?_, fun a ha => copyChunk_read_of_holds hh ch ha⟩
  rw [copyChunk_rxCount, storedCount, h0, Nat.zero_add, Nat.sub_zero]

/-- Settles O23: bytes that complete nothing are only stored; without surplus by induction on the parts; and after a completing
part the block is idle, so the rest is stored from offset 0. -/
theorem chunkingLaw : Obligations.ChunkingLaw := by
  refine ⟨fun s c1 c2 _ hlen => ?_, fun s c cs _ hlen => execAll_chunks cs c s hlen, fun s c1 c2 hs hb hlen hcap => ?_⟩
  · have hk := storedCount_le c1 s
    exact ⟨copyChunk c1 s, receive_stores fun h => by omega, receive_copyChunk c1 c2 s⟩
  · obtain ⟨os, h1, h2⟩ := receive_completes_with_surplus hs hb hlen hcap c2
    obtain ⟨h3, hcount, hread⟩ := receive_stray (s := emit os (disarm (copyChunk c1 s))) rfl rfl c2
    exact ⟨_, _, _, h1, h3, h2, rfl, rfl, hcount, hread⟩

/-! ## RESET, OPEN and CLOSE (R74 to R76) -/

/-- With nothing in flight and the link down, all that is left to clear is the counter. -/
theorem disarm_setLink_of_disarmed {s : State} (hl : s.linkOpen = false) (hb : s.busy = false) (hp : s.pendValid = false) :
    disarm (setLink false s) = { s with rxCount := 0 } := by
  cases s
  cases hl
  cases hb
  cases hp
  rfl

/-- Settles O10: the state is the disarmed one with the link down, which in the corner case is the state itself. -/
theorem resetEvent : Obligations.ResetEvent := by
  refine ⟨by decide, fun s => ⟨_, rfl, (controlState_closed_iff _).mpr rfl, rfl⟩, fun s hl hb h0 hp => ?_⟩
  exact congrArg Host.Outcome.next ((disarm_setLink_of_disarmed hl hb hp).trans (by rw [← h0]))

/-- Settles O11: `OPEN` writes `link_open` alone, so where that is 1 already the state is the same. -/
theorem openEvent : Obligations.OpenEvent := by
  refine ⟨by decide, fun s => rfl, fun s hl => ?_⟩
  change Host.Outcome.next { s with linkOpen := true } = _
  rw [← hl]

/-- Settles O12: `CLOSE` is `RESET`'s update, and a closed block with the invariants has nothing in flight (R21). -/
theorem closeEvent : Obligations.CloseEvent := by
  refine ⟨by decide, fun s => rfl, fun s => rfl, fun s hs hl => ?_⟩
  obtain ⟨hb, hp⟩ := hs.disarmed_of_closed hl
  exact congrArg Host.Outcome.next (disarm_setLink_of_disarmed hl hb hp)

/-! ## ISSUE_RD and ISSUE_WR (R77, R78) -/

theorem exec_issueRd (a : Addr) (c : Word) (d : Dest) (s : State) : exec (.issueRd a c d) s = issue (sendRead a c d) s := rfl

theorem exec_issueWr (a : Addr) (w : Word) (s : State) : exec (.issueWr a w) s = issue (sendWrite a w) s := rfl

/-- Settles O13: the three outcomes of an `ISSUE`, and an accepted one sends the encoder's frame. -/
theorem issueReadEvent : Obligations.IssueReadEvent := by
  intro s a c d
  rw [exec_issueRd]
  refine ⟨issue_of_closed _, issue_of_busy _, fun hl hb => ⟨encodeRead a c, ?_, pkt_map_toNat Config.ctlRead a c⟩⟩
  rw [issue_of_idle _ hl hb, sendRead_eq]

/-- Settles O14: as O13, with the write's arming. -/
theorem issueWriteEvent : Obligations.IssueWriteEvent := by
  intro s a w
  rw [exec_issueWr]
  exact ⟨issue_of_closed _, issue_of_busy _,
    fun hl hb => ⟨encodeWrite a w, issue_of_idle _ hl hb, pkt_map_toNat Config.ctlWrite a w⟩⟩

end Sys2Proof.Machine
end

section
/-! The statement about the exceptions (60_exceptions.md): who is rejected, with what, and that nothing else changes (R88, R91,
R93, R94). -/

namespace Sys2Proof.Machine

section
variable {s t : State} {i : Instr}

/-- Arriving bytes are never rejected, in any state: what they output, if anything, ends with a notification (R81, R90). -/
theorem receive_not_rejected {ch : List Byte} (h : receive ch s = .next t) (f : Failure) :
    t.outputs ≠ s.outputs ++ [.reject f] := by
  obtain ⟨-, rfl⟩ | ⟨-, -, r, rfl⟩ := receive_next h
  · simp
  · obtain ⟨os, ok, ho⟩ := completionOutputs_done s r
    simp [ho, List.append_eq_singleton_iff]

/-- The two rejections and everything else: an `ISSUE` while closed, an `ISSUE` while open and busy, and what is no `ISSUE` or is
an accepted one, which outputs no `REJECT` (R88, R91, R93). -/
theorem exec_rejection (h : exec i s = .next t) :
    (isIssue i = true ∧ s.linkOpen = false ∧ t = raise .transportUnavailable s) ∨
    (isIssue i = true ∧ s.linkOpen = true ∧ s.busy = true ∧ t = raise .busy s) ∨
    ((isIssue i = true → s.linkOpen = true ∧ s.busy = false) ∧ ∀ f, t.outputs ≠ s.outputs ++ [.reject f]) := by
  cases exec_effect h with
  | arrive ch _ hi _ hr => exact .inr (.inr ⟨by simp [hi], receive_not_rejected hr⟩)
  | cancel _ hi _ ht => exact .inr (.inr ⟨by simp [hi], by simp [ht]⟩)
  | link he ht => exact .inr (.inr ⟨by simp [he, isIssue], by simp [ht]⟩)
  | unavailable _ hi _ hl ht => exact .inl ⟨hi, hl, ht⟩
  | busy _ hi _ hl hb ht => exact .inr (.inl ⟨hi, hl, hb, ht⟩)
  | armRead _ _ _ _ _ _ hl hb ht => exact .inr (.inr ⟨fun _ => ⟨hl, hb⟩, by simp [ht]⟩)
  | armWrite _ _ _ _ _ hl hb ht => exact .inr (.inr ⟨fun _ => ⟨hl, hb⟩, by simp [ht]⟩)
  | result _ _ hi _ ht => exact .inr (.inr ⟨by simp [hi], by simp [ht]⟩)

/-- A rejected event's output says which failure it was. -/
theorem raise_outputs_eq_iff (f g : Failure) (s : State) :
    (raise f s).outputs = s.outputs ++ [.reject g] ↔ f = g := by
  simp

end

/-- Settles O15: in each of the two rejections the state is `raise` of the one failure that goes with the flags; anything else
outputs no `REJECT`, and its flags are those of neither rejection. -/
theorem onlyIssuesAreRejected : Obligations.OnlyIssuesAreRejected := by
  intro s t i h
  obtain ⟨hi, hl, rfl⟩ | ⟨hi, hl, hb, rfl⟩ | ⟨hacc, hno⟩ := exec_rejection h
  · simp only [raise_outputs_eq_iff]
    refine ⟨by simp [hi, hl], by simp [hl], ?_⟩
    rintro f rfl
    exact ⟨rfl, .inl rfl⟩
  · simp only [raise_outputs_eq_iff]
    refine ⟨by simp [hl], by simp [hi, hl, hb], ?_⟩
    rintro f rfl
    exact ⟨rfl, .inr rfl⟩
  · refine ⟨iff_of_false (hno _) fun ⟨hi, hl⟩ => ?_, iff_of_false (hno _) fun ⟨hi, _, hb⟩ => ?_,
      fun f hf => absurd hf (hno f)⟩
    · simp [(hacc hi).1] at hl
    · simp [(hacc hi).2] at hb

end Sys2Proof.Machine
end

section
/-! The statements about reset and hazards (70_reset_and_hazards.md): what clears the reassembly (R103), a block with nothing in
flight (R107), and a read that no buffer of this capacity can answer (R111). -/

namespace Sys2Proof.Machine

/-- A run that goes on keeps what each of its instructions keeps. -/
theorem execAll_induction {P : State → Prop} {is : List Instr} {s t : State}
    (hstep : ∀ i ∈ is, ∀ u v, P u → exec i u = .next v → P v) (hs : P s) (h : execAll is s = .next t) : P t := by
  induction is generalizing s with
  | nil =>
    injection h with h
    exact h ▸ hs
  | cons i is ih =>
    obtain ⟨u, hu, hrest⟩ := execAll_cons h
    have hP : P u := hstep i List.mem_cons_self s u hs hu
    exact ih (fun j hj => hstep j (List.mem_cons_of_mem i hj)) hP hrest

/-! ## A read that does not fit (R111) -/

/-- A request is in flight whose response has `n` bytes, more than the buffer takes, and the answers output are `answers`. -/
structure State.Overlong (n : Nat) (answers : List Output) (s : State) : Prop where
  inv : s.Inv
  linkOpen : s.linkOpen = true
  busy : s.busy = true
  expLen : s.expLen = n
  overrun : s.bufCap < n
  answered : s.outputs.filter isAnswer = answers

section
variable {n : Nat} {answers : List Output} {s t : State}

/-- Arriving bytes cannot complete the frame: the counter is capped (R79) below the length that a completion asks for. -/
theorem State.Overlong.receive_eq (hs : s.Overlong n answers) (ch : List Byte) :
    receive ch s = .next (copyChunk ch s) := by
  have hcap := copyChunk_count_le hs.inv ch
  have hlen := hs.expLen
  have hover := hs.overrun
  exact receive_stores fun hc => by omega

/-- Only `RESET` and `CLOSE` end it: bytes are stored, an `ISSUE` is rejected, nothing else touches the request. -/
theorem State.Overlong.after_exec {i : Instr} (hs : s.Overlong n answers) (hi : ¬ Cancels i) (h : exec i s = .next t) :
    t.Overlong n answers := by
  have ht := exec_inv hs.inv h
  cases exec_effect h with
  | arrive ch _ _ _ hr =>
    rw [hs.receive_eq ch] at hr
    cases hr
    exact { hs with inv := ht }
  | cancel _ _ hc _ => exact absurd hc hi
  | link _ he =>
    cases he
    exact { hs with inv := ht, linkOpen := rfl }
  | unavailable _ _ _ hl _ => simp [hs.linkOpen] at hl
  | busy _ _ _ _ _ he =>
    cases he
    exact { hs with inv := ht, answered := by simp [hs.answered, isAnswer] }
  | armRead _ _ _ _ _ _ _ hb _ | armWrite _ _ _ _ _ _ hb _ => simp [hs.busy] at hb
  | result _ _ _ _ he =>
    cases he
    exact { hs with inv := ht }

/-- An accepted read request of more than `MAX_COUNT` values starts it. -/
theorem sendRead_overlong {count : Word} (hs : s.Inv) (hl : s.linkOpen = true)
    (hc : Config.maxCount s.bufCap < count.toNat) (addr : Addr) (dest : Dest) :
    (sendRead addr count dest s).Overlong (9 + 4 * count.toNat) (s.outputs.filter isAnswer) := by
  rw [Config.maxCount] at hc
  exact
    { inv := (hs.armRead hl count dest).emit _
      linkOpen := hl
      busy := rfl
      expLen := by
        rw [sendRead, emit_expLen, armRead_expLen, expectedLen_rd]
        omega
      overrun := by
        rw [sendRead, emit_bufCap, armRead_bufCap]
        omega
      answered := by simp [sendRead, isAnswer] }

end

/-- Settles O39: the accepted `ISSUE_RD` puts a frame in flight that does not fit, and every later instruction keeps it there. -/
theorem oversizedReadNeverCompletes : Obligations.OversizedReadNeverCompletes := by
  intro s t addr count dest is hs hl hb hc his h
  obtain ⟨u, hu, hrest⟩ := execAll_cons h
  rw [exec_issueRd, issue_of_idle _ hl hb] at hu
  cases hu
  have ht := execAll_induction (fun i hi u v hu huv => hu.after_exec (his i hi) huv) (sendRead_overlong hs hl hc addr dest) hrest
  exact ⟨(controlState_wait_iff t).mpr ⟨ht.linkOpen, ht.busy⟩, ht.expLen, ht.answered⟩

/-! ## What clears the reassembly (R103) -/

section
variable {s t : State} {i : Instr}

/-- `RESET` and `CLOSE` do the same thing (R74, R76). -/
theorem exec_of_cancels (hc : Cancels i) (s : State) : exec i s = .next (disarm (setLink false s)) := by
  obtain rfl | rfl := hc <;> rfl

/-- The next state of bytes that complete the frame in flight. -/
theorem receive_next_of_completes {ch : List Byte} (h : receive ch s = .next t) (hb : s.busy = true)
    (hlen : s.expLen ≤ s.rxCount + storedCount ch s) :
    ∃ r, t = emit (completionOutputs s r) (disarm (copyChunk ch s)) := by
  obtain ⟨hn, -⟩ | ⟨-, -, ht⟩ := receive_next h
  · exact absurd ⟨hb, hlen⟩ hn
  · exact ht

/-- What an instruction does to `rx_count`: `RESET`, `CLOSE` and a completion clear it, nothing else lowers it (R13, R103). -/
theorem exec_rxCount (h : exec i s = .next t) :
    Cancels i ∨
    (∃ ch, bytesArriving i = some ch ∧ s.busy = true ∧ s.expLen ≤ s.rxCount + storedCount ch s) ∨
    s.rxCount ≤ t.rxCount := by
  cases exec_effect h with
  | arrive ch hch _ _ hr =>
    obtain ⟨-, rfl⟩ | ⟨hb, hlen, -⟩ := receive_next hr
    · exact .inr (.inr (Nat.le_add_right _ _))
    · exact .inr (.inl ⟨ch, hch, hb, hlen⟩)
  | cancel _ _ hc _ => exact .inl hc
  | link _ ht | unavailable _ _ _ _ ht | busy _ _ _ _ _ ht | armRead _ _ _ _ _ _ _ _ ht | armWrite _ _ _ _ _ _ _ ht
  | result _ _ _ _ ht =>
    cases ht
    exact .inr (.inr le_rfl)

end

/-- Settles O24: `RESET` and `CLOSE` disarm with the link down, a completion disarms with the link up, since a request in flight
has it open (R21), and nothing else lowers the counter. -/
theorem onlyThreeThingsClearTheReassembly : Obligations.OnlyThreeThingsClearTheReassembly := by
  intro s t i hs h
  refine ⟨fun hc => ?_, fun ch hch hb hlen => ?_, fun hlt => ?_⟩
  · rw [exec_of_cancels hc] at h
    cases h
    exact ⟨rfl, rfl, rfl, rfl, rfl⟩
  · rw [exec_arriving hch] at h
    obtain ⟨r, rfl⟩ := receive_next_of_completes h hb hlen
    obtain ⟨os, ok, ho⟩ := completionOutputs_done s r
    have hl := hs.busy_open hb
    exact ⟨rfl, rfl, rfl, hl, hl, os, ok, by simp [ho]⟩
  · obtain hc | hcomp | hle := exec_rxCount h
    · exact .inl hc
    · exact .inr hcomp
    · exact absurd hlt (Nat.not_lt.mpr hle)

/-! ## Nothing in flight (R107) -/

/-- With nothing in flight only an `ISSUE` outputs anything or puts something in flight: bytes that arrive are only stored. -/
theorem exec_quiescent {s t : State} {i : Instr} (hb : s.busy = false) (hi : isIssue i = false) (h : exec i s = .next t) :
    t.outputs = s.outputs ∧ t.busy = false := by
  cases exec_effect h with
  | arrive ch _ _ _ hr =>
    rw [receive_stores (by simp [hb])] at hr
    cases hr
    exact ⟨rfl, hb⟩
  | cancel _ _ _ ht =>
    cases ht
    exact ⟨rfl, rfl⟩
  | link _ ht | result _ _ _ _ ht =>
    cases ht
    exact ⟨rfl, hb⟩
  | unavailable _ hi' | busy _ hi' | armRead _ _ _ _ hi' | armWrite _ _ _ hi' => simp [hi] at hi'

/-- Settles O41, by induction on the run. -/
theorem quiescentUntilAnIssue : Obligations.QuiescentUntilAnIssue := by
  intro s t is _ hb his h
  refine execAll_induction (P := fun u => u.outputs = s.outputs ∧ u.busy = false) ?_ ⟨rfl, hb⟩ h
  rintro i hi u v ⟨hout, hbusy⟩ huv
  obtain ⟨hout', hbusy'⟩ := exec_quiescent hbusy (his i hi) huv
  exact ⟨hout'.trans hout, hbusy'⟩

end Sys2Proof.Machine
end
